-- ==== Sys2Proof/Word.lean ====
section
/-! DEFINITION. The word types of the core: every architectural value is an unsigned byte (spec/00_scope.md R6, R8). -/

namespace Sys2Proof

/-- A `u8` of the spec: a memory cell, a stack entry, an opcode (R8, R21). -/
abbrev Byte := BitVec 8

/-- An address of the one 256-byte space, an unsigned 8-bit value that wraps (R40, R41). -/
abbrev Addr := BitVec 8

end Sys2Proof
end

