-- ==== Sys2Proof/Config.lean ====
section
/-! DEFINITION. The parameters the spec leaves open (spec/00_scope.md R7). None has a body, so nothing can be
proved of a value of theirs; what the spec does fix of them is in the functions that use them. -/

namespace Sys2Proof

/-- `RENDER_DUMP(pc, sp, mem)`: the bytes the debug dump sends, a pure function of the program counter, the stack
pointer and the 256 cells, and nothing else is assumed of it (R12, R132, log 10). -/
opaque Config.renderDump : Byte → Byte → Vector Byte 256 → List Byte

/-- The first free point of `PARSE_LINE`: is a single leading plus sign accepted (R122, I3, log 5)? -/
opaque Config.acceptsPlus : Bool

/-- The second free point of `PARSE_LINE`: which byte strings besides ASCII white space are white space (R122, I3). It is
asked of whole runs, so that a host's white space may be single bytes or, in a Unicode-aware trim, characters of
several bytes (I13, log 5). -/
opaque Config.blankRun : List Byte → Bool

/-- `INPUT_SHARED`: is the core's input the stream from which the host reads program lines (D22, R406, log 12)? -/
opaque Config.inputShared : Bool

/-- `LOAD_IMAGE(line)`: how the host turns a program line into the image (R7, R402, I18, log 11). -/
opaque Config.loadImage : List Byte → List Byte

end Sys2Proof
end

