-- ==== Sys2Proof/Syntax.lean ====
section
/-! DEFINITION. The instruction set, whole (spec/30_encoding.md R62, R63): one constructor per mnemonic of
spec/opcode_table.json. The 212 rows `(unrecognized)` share one constructor, which keeps the byte. -/

namespace Sys2Proof

/-- The instructions of the core. A literal digit carries its nibble in the opcode (R64); no instruction has another
immediate; every operand is popped from the stack (R60). -/
inductive Instr where
  /-- `HALT`, the character `x`, byte 0x78 (R100). -/
  | halt
  /-- `PUSHN_0`, the character `0`, byte 0x30 (R102). -/
  | pushn0
  /-- `PUSHN_1`, the character `1`, byte 0x31 (R102). -/
  | pushn1
  /-- `PUSHN_2`, the character `2`, byte 0x32 (R102). -/
  | pushn2
  /-- `PUSHN_3`, the character `3`, byte 0x33 (R102). -/
  | pushn3
  /-- `PUSHN_4`, the character `4`, byte 0x34 (R102). -/
  | pushn4
  /-- `PUSHN_5`, the character `5`, byte 0x35 (R102). -/
  | pushn5
  /-- `PUSHN_6`, the character `6`, byte 0x36 (R102). -/
  | pushn6
  /-- `PUSHN_7`, the character `7`, byte 0x37 (R102). -/
  | pushn7
  /-- `PUSHN_8`, the character `8`, byte 0x38 (R102). -/
  | pushn8
  /-- `PUSHN_9`, the character `9`, byte 0x39 (R102). -/
  | pushn9
  /-- `PUSHN_10`, the character `a`, byte 0x61 (R102). -/
  | pushn10
  /-- `PUSHN_11`, the character `b`, byte 0x62 (R102). -/
  | pushn11
  /-- `PUSHN_12`, the character `c`, byte 0x63 (R102). -/
  | pushn12
  /-- `PUSHN_13`, the character `d`, byte 0x64 (R102). -/
  | pushn13
  /-- `PUSHN_14`, the character `e`, byte 0x65 (R102). -/
  | pushn14
  /-- `PUSHN_15`, the character `f`, byte 0x66 (R102). -/
  | pushn15
  /-- `COMB`, the character `.`, byte 0x2E (R103). -/
  | comb
  /-- `INDEC`, the character `i`, byte 0x69 (R128). -/
  | indec
  /-- `OUTDEC`, the character `o`, byte 0x6F (R129). -/
  | outdec
  /-- `INBYTE`, the character `:`, byte 0x3A (R130). -/
  | inbyte
  /-- `OUTBYTE`, the character `'`, byte 0x27 (R131). -/
  | outbyte
  /-- `DUMP`, the character `"`, byte 0x22 (R132). -/
  | dump
  /-- `SWAP`, the character `@`, byte 0x40 (R140). -/
  | swap
  /-- `DUP`, the character `(`, byte 0x28 (R141). -/
  | dup
  /-- `DROP`, the character `)`, byte 0x29 (R142). -/
  | drop
  /-- `ADD`, the character `+`, byte 0x2B (R161). -/
  | add
  /-- `SUB`, the character `-`, byte 0x2D (R162). -/
  | sub
  /-- `MUL`, the character `*`, byte 0x2A (R163). -/
  | mul
  /-- `DIV`, the character `/`, byte 0x2F (R164). -/
  | div
  /-- `REM`, the character `%`, byte 0x25 (R165). -/
  | rem
  /-- `POW`, the character `^`, byte 0x5E (R166). -/
  | pow
  /-- `LNOT`, the character `!`, byte 0x21 (R167). -/
  | lnot
  /-- `EQ`, the character `=`, byte 0x3D (R168). -/
  | eq
  /-- `LT`, the character `<`, byte 0x3C (R169). -/
  | lt
  /-- `GT`, the character `>`, byte 0x3E (R170). -/
  | gt
  /-- `NOT`, the character `~`, byte 0x7E (R171). -/
  | not
  /-- `OR`, the character `|`, byte 0x7C (R172). -/
  | or
  /-- `AND`, the character `&`, byte 0x26 (R173). -/
  | and
  /-- `XOR`, the character `X`, byte 0x58 (R174). -/
  | xor
  /-- `JMP`, the character `g`, byte 0x67 (R201). -/
  | jmp
  /-- `JNZ`, the character `j`, byte 0x6A (R202). -/
  | jnz
  /-- `LOAD`, the character `l`, byte 0x6C (R221). -/
  | load
  /-- `STORE`, the character `s`, byte 0x73 (R222). -/
  | store
  /-- `(unrecognized)`: a byte that is none of the 44 opcodes; it halts (R63, R101). DEDUCED (log 15). -/
  | unrecognized (op : Byte)
deriving DecidableEq, Repr

end Sys2Proof
end

