-- ==== Sys2Proof/WellFormed.lean ====
section
/-! DEFINITION. Which terms of `Instr` stand for an instruction: all but an `unrecognized` byte that the opcode map
does recognize. -/

namespace Sys2Proof

/-- The 212 unrecognized byte values, as the ranges R63 lists them (written from R63's own list, not from the
decoder). -/
def unrecognizedByte (op : Byte) : Bool :=
  let n := op.toNat
  n ≤ 0x20 || (0x23 ≤ n && n ≤ 0x24) || n == 0x2C || n == 0x3B || n == 0x3F || (0x41 ≤ n && n ≤ 0x57) ||
  (0x59 ≤ n && n ≤ 0x5D) || (0x5F ≤ n && n ≤ 0x60) || n == 0x68 || n == 0x6B || (0x6D ≤ n && n ≤ 0x6E) ||
  (0x70 ≤ n && n ≤ 0x72) || (0x74 ≤ n && n ≤ 0x77) || (0x79 ≤ n && n ≤ 0x7B) || n == 0x7D || 0x7F ≤ n

/-- An instruction is well formed unless it calls a recognized byte unrecognized (R62, R63). -/
def Instr.wellFormed : Instr → Bool
  | .unrecognized op => unrecognizedByte op
  | _ => true

end Sys2Proof
end

