-- ==== Sys2Proof/Decode.lean ====
section
/-! DEFINITION. The decoder and the encoder (spec/30_encoding.md R60 to R65, R69). The decoder never fails on a byte;
only a missing byte is rejected, by name. -/

namespace Sys2Proof

/-- `Decode` of R69: the instruction of every byte value, by the map of R62; a byte outside the map is
`unrecognized` (R63). -/
def decode (op : Byte) : Instr :=
  match op.toNat with
  | 0x78 => .halt
  | 0x30 => .pushn0
  | 0x31 => .pushn1
  | 0x32 => .pushn2
  | 0x33 => .pushn3
  | 0x34 => .pushn4
  | 0x35 => .pushn5
  | 0x36 => .pushn6
  | 0x37 => .pushn7
  | 0x38 => .pushn8
  | 0x39 => .pushn9
  | 0x61 => .pushn10
  | 0x62 => .pushn11
  | 0x63 => .pushn12
  | 0x64 => .pushn13
  | 0x65 => .pushn14
  | 0x66 => .pushn15
  | 0x2E => .comb
  | 0x69 => .indec
  | 0x6F => .outdec
  | 0x3A => .inbyte
  | 0x27 => .outbyte
  | 0x22 => .dump
  | 0x40 => .swap
  | 0x28 => .dup
  | 0x29 => .drop
  | 0x2B => .add
  | 0x2D => .sub
  | 0x2A => .mul
  | 0x2F => .div
  | 0x25 => .rem
  | 0x5E => .pow
  | 0x21 => .lnot
  | 0x3D => .eq
  | 0x3C => .lt
  | 0x3E => .gt
  | 0x7E => .not
  | 0x7C => .or
  | 0x26 => .and
  | 0x58 => .xor
  | 0x67 => .jmp
  | 0x6A => .jnz
  | 0x6C => .load
  | 0x73 => .store
  | _ => .unrecognized op

/-- Why a byte sequence does not start with an instruction. -/
inductive DecodeReject where
  /-- There is no byte to read. Every byte there is decodes (R65, R69). -/
  | noByte
deriving DecidableEq, Repr

/-- Read one instruction from the front of a byte sequence: its length is always one byte (R60). -/
def decodeBytes : List Byte → Except DecodeReject (Instr × List Byte)
  | [] => .error .noByte
  | op :: rest => .ok (decode op, rest)

/-- The one opcode byte of a table row: `w` cut to the row's `nbits` bits, the bits above them zero. -/
def tableByte (nbits w : Nat) : Byte :=
  BitVec.ofNat 8 (w % 2 ^ nbits)

/-- The instruction the decoder reads from the bits `w` of a row of spec/opcode_table.json. -/
def decodeTableWord (nbits w : Nat) : Option Instr :=
  match decodeBytes [tableByte nbits w] with
  | .ok (i, _) => some i
  | .error _ => none

/-- The byte of an instruction, from the map of R62: the ASCII code of its character. -/
def encode : Instr → Byte
  | .halt => 0x78
  | .pushn0 => 0x30
  | .pushn1 => 0x31
  | .pushn2 => 0x32
  | .pushn3 => 0x33
  | .pushn4 => 0x34
  | .pushn5 => 0x35
  | .pushn6 => 0x36
  | .pushn7 => 0x37
  | .pushn8 => 0x38
  | .pushn9 => 0x39
  | .pushn10 => 0x61
  | .pushn11 => 0x62
  | .pushn12 => 0x63
  | .pushn13 => 0x64
  | .pushn14 => 0x65
  | .pushn15 => 0x66
  | .comb => 0x2E
  | .indec => 0x69
  | .outdec => 0x6F
  | .inbyte => 0x3A
  | .outbyte => 0x27
  | .dump => 0x22
  | .swap => 0x40
  | .dup => 0x28
  | .drop => 0x29
  | .add => 0x2B
  | .sub => 0x2D
  | .mul => 0x2A
  | .div => 0x2F
  | .rem => 0x25
  | .pow => 0x5E
  | .lnot => 0x21
  | .eq => 0x3D
  | .lt => 0x3C
  | .gt => 0x3E
  | .not => 0x7E
  | .or => 0x7C
  | .and => 0x26
  | .xor => 0x58
  | .jmp => 0x67
  | .jnz => 0x6A
  | .load => 0x6C
  | .store => 0x73
  | .unrecognized op => op

/-- A program's text is its machine code, byte for byte (R66). -/
def encodeProgram (is : List Instr) : List Byte :=
  is.map encode

end Sys2Proof
end

