-- ==== Sys2Proof/Machine/State.lean ====
section
/-! DEFINITION. The machine's state as plain data, all of what spec/10_state.md gives it (R20 to R33), the reasons a
step can stop, and the state after reset (spec/70_reset_and_hazards.md R400, R401). -/

namespace Sys2Proof.Machine

/-- The run state `rs` (R28). Software cannot read it; the host can. DESIGN CHOICE of the form, safe (log 9). -/
inductive RunState where
  /-- The next Step fetches and executes. -/
  | running
  /-- Stopped by `x` or by an unrecognized opcode. Terminal. -/
  | halted
  /-- Stopped by an I/O-class failure, a parse failure on `i` included. Terminal. -/
  | faultIO
  /-- Stopped by a division or remainder by zero. Terminal. -/
  | faultArith
deriving DecidableEq, Repr

/-- The two fault causes of R300. -/
inductive FaultCause where
  /-- An I/O-class failure (R301, R302). -/
  | io
  /-- Division or remainder by zero (R164, R165). -/
  | arith
deriving DecidableEq, Repr

/-- What a completed Step returns to the host (R68, D19). -/
inductive StepResult where
  /-- The host may call Step again. -/
  | continue
  /-- The run ended normally. -/
  | halt
  /-- The run ended in a fatal failure. -/
  | fault (cause : FaultCause)
deriving DecidableEq, Repr

/-- One item of the input stream, in the order the port meets them (R31, R120, R121). DESIGN CHOICE, safe: a read error
is an item (log 6). -/
inductive InItem where
  /-- An input byte not yet consumed. -/
  | byte (b : Byte)
  /-- At this place a read meets a read error. -/
  | readError
deriving DecidableEq, Repr

/-- The output port's reply to a transaction (R124, R125). DESIGN CHOICE of the form, safe (log 7). -/
inductive OutReply where
  /-- The whole of a write was delivered. -/
  | ok
  /-- The transaction failed; of a write, the first `delivered` bytes were delivered (all of it where that is more
  than it has): every prefix is admitted (R124, D24). -/
  | fails (delivered : Nat)
deriving DecidableEq, Repr

/-- One output transaction the core issued, with its reply (R31, R124, R125). -/
inductive OutEvent where
  /-- `Out.Write(bytes)`. -/
  | write (bytes : List Byte) (reply : OutReply)
  /-- `Out.Flush()`. -/
  | flush (reply : OutReply)
deriving DecidableEq, Repr

/-- The memory: (address, byte) pairs, addresses strictly rising, no byte equal to what an unlisted address reads
as. `Memory.wf` (Ops.lean) says that form. -/
abbrev Memory := List Host.Cell

/-- The whole state of the machine (R33), and the output port's coming replies. -/
structure State where
  /-- The 256 cells (R21). -/
  mem : Memory
  /-- The address of the next instruction to fetch; during an instruction, of its own opcode (R22, R24). -/
  pc : Addr
  /-- The address of the next free stack cell (R25, R45). -/
  sp : Addr
  /-- The run state (R28). -/
  rs : RunState
  /-- The wait condition: a read of the instruction at `pc` is outstanding (R30). -/
  wait : Bool
  /-- The input that has arrived and is not yet consumed (R31). -/
  input : List InItem
  /-- Has the input stream ended behind `input`? If not, a read that needs more blocks (R121, R123, R127). -/
  inEnded : Bool
  /-- The input stream position: the bytes this machine has consumed (R33). -/
  inPos : Nat
  /-- The output transactions issued so far, oldest first (R31). -/
  out : List OutEvent
  /-- The model's own field: the replies to the coming output transactions; beyond the list the port answers `ok`
  (R404). DESIGN CHOICE, unsafe (log 4). -/
  outReplies : List OutReply
deriving DecidableEq, Repr

/-- Why a step has no next state. The spec's own faults are not here: their entry is described, so they are next
states (R303, R304). -/
inductive Fault where
  /-- The core waits for an input answer that has not arrived: it has no successor until the port answers. Raised by
  `i` and `:` in a state that already waits (R30, R127, I5). Safe: the model stops where the hardware waits. -/
  | inputPending
deriving DecidableEq, Repr

/-- Why the model gives no run. -/
inductive Refusal where
  /-- The instruction has no meaning yet. Raised by no arm: every instruction has one. Safe. -/
  | notModelled (mnemonic : String)
  /-- An image of more than 256 bytes: no run is started. Raised by `launch` only, never by a step (R402, D13). Safe. -/
  | imageTooLong (len : Nat)
deriving DecidableEq, Repr

/-- The machine right after reset with the empty image (R400, R401): memory all zero, `pc` 0x00, `sp` 0xFF, RUNNING,
not waiting, no output. DESIGN CHOICE, unsafe: nothing of the input has arrived yet (log 2), and every output
transaction will be answered `ok` (log 4). -/
def State.reset : State where
  mem := []
  pc := 0x00
  sp := 0xFF
  rs := .running
  wait := false
  input := []
  inEnded := false
  inPos := 0
  out := []
  outReplies := []

end Sys2Proof.Machine
end

