-- ==== Sys2Proof/Machine/Ops.lean ====
section
/-! DEFINITION. The named operations over memory and registers: the memory cells (spec/20_memory.md), the stack
primitives (R46, R47), the advance (R23), the end of a run by a halt or a fault (spec/60_exceptions.md). -/

namespace Sys2Proof.Machine

/-- What a cell that nothing has written reads as: reset fills memory with zeros (R400). -/
def Memory.blank : Byte := 0x00

/-- Is the list strictly rising in its addresses, above the bound `lo`, inside the 256 cells, and free of blank
entries? -/
def Memory.wfFrom : Nat → Memory → Bool
  | _, [] => true
  | lo, (a, v) :: rest => lo ≤ a && a < 256 && v != Memory.blank && Memory.wfFrom (a + 1) rest

/-- The canonical form of a memory: equal memories are equal lists. -/
def Memory.wf (m : Memory) : Bool :=
  Memory.wfFrom 0 m

/-- The byte at a cell. -/
def Memory.read : Memory → Nat → Byte
  | [], _ => Memory.blank
  | (k, v) :: rest, a => if k = a then v else Memory.read rest a

/-- The memory without an entry for `a`. -/
def Memory.erase (m : Memory) (a : Nat) : Memory :=
  m.filter (fun c => c.1 != a)

/-- The memory with the entry `(a, v)` put in its place. -/
def Memory.insert : Memory → Nat → Byte → Memory
  | [], a, v => [(a, v)]
  | (k, w) :: rest, a, v => if a < k then (a, v) :: (k, w) :: rest else (k, w) :: Memory.insert rest a v

/-- Write one byte, keeping the canonical form: a blank byte is not listed. -/
def Memory.write (m : Memory) (a : Nat) (v : Byte) : Memory :=
  if v = Memory.blank then m.erase a else (m.erase a).insert a v

/-- The 256 cells, in address order: what the debug dump sees (R132). -/
def Memory.cells (m : Memory) : Vector Byte 256 :=
  Vector.ofFn fun a => m.read a.val

/-- `MemRead(a, 1)` (R44): every address exists, no access fails (R41). -/
def readMem (s : State) (a : Addr) : Byte :=
  s.mem.read a.toNat

/-- `MemWrite(a, 1, v)` (R44). -/
def writeMem (s : State) (a : Addr) (v : Byte) : State :=
  { s with mem := s.mem.write a.toNat v }

/-- The fetch: `mem[pc]`, read afresh (R53, R68). -/
def fetch (s : State) : Byte :=
  readMem s s.pc

/-- `Push(v)`: write the free cell `mem[sp]`, then move `sp` down, modulo 256 (R46). -/
def push (v : Byte) (s : State) : State :=
  { writeMem s s.sp v with sp := s.sp - 1 }

/-- `Pop()`: move `sp` up, modulo 256, and read that cell, which keeps its value (R47). -/
def pop (s : State) : Byte × State :=
  (readMem s (s.sp + 1), { s with sp := s.sp + 1 })

/-- `Advance()`: the default move of `pc`, modulo 256 (R23). -/
def advance (s : State) : State :=
  { s with pc := s.pc + 1 }

/-- `pc <- target`: a taken control transfer, which suppresses the advance (R200). -/
def jump (target : Addr) (s : State) : State :=
  { s with pc := target }

/-- The 2-bit code of a run state (R28). -/
def RunState.code : RunState → BitVec 2
  | .running => 0
  | .halted => 1
  | .faultIO => 2
  | .faultArith => 3

/-- The run state that records a fault cause (R300, R303). -/
def FaultCause.runState : FaultCause → RunState
  | .io => .faultIO
  | .arith => .faultArith

/-- The result a Step returns in a state of this run state (R68, R70). -/
def RunState.result : RunState → StepResult
  | .running => .continue
  | .halted => .halt
  | .faultIO => .fault .io
  | .faultArith => .fault .arith

/-- The halt of R100 and R101: `rs <- HALTED`, and nothing else changes; `pc` is not advanced (D6). -/
def halt (s : State) : State :=
  { s with rs := .halted }

/-- Taking a fault, `raise Fault(cause)`, in an instruction that began in `before` and has come to `now`: `rs` takes
the cause's value, and `pc`, `sp` and `mem` are those of `before`. The port transactions done so far keep their
effect, and a read is no longer outstanding (R303, R304). There is no handler, no vector and no return (R306). -/
def raiseFault (cause : FaultCause) (before now : State) : State :=
  { now with mem := before.mem, pc := before.pc, sp := before.sp, rs := cause.runState, wait := false }

end Sys2Proof.Machine
end

