-- ==== Sys2Proof/Machine/Flags.lean ====
section
/-! DEFINITION. The core has no flags (spec/10_state.md R26): what a flag would hold, a comparison or a logical not
pushes as the byte 1 or 0, and a conditional jump tests a popped byte. -/

namespace Sys2Proof.Machine

/-- The byte that stands for a truth value: exactly 1 or 0 (R26, R175). -/
def truth (p : Bool) : Byte :=
  if p then 1 else 0

/-- The test of a conditional jump: every byte but 0x00 counts as true (R202). -/
def condHolds (v : Byte) : Bool :=
  v != 0

end Sys2Proof.Machine
end

