-- ==== Sys2Proof/Machine/Operands.lean ====
section
/-! DEFINITION. The operand forms: every operand comes from the stack (spec/30_encoding.md R60, spec/43_alu.md R160). -/

namespace Sys2Proof.Machine

/-- The one-operand form: pop `a`, push `f a`, advance (R160). -/
def unary (f : Byte → Byte) (s : State) : Host.Outcome State Fault Refusal :=
  let p := pop s
  .next (advance (push (f p.1) p.2))

/-- The two-operand form: pop `b`, then `a`, push `f a b`, advance (R160). -/
def binary (f : Byte → Byte → Byte) (s : State) : Host.Outcome State Fault Refusal :=
  let p := pop s
  let q := pop p.2
  .next (advance (push (f q.1 p.1) q.2))

/-- The two-operand form of division and remainder: as `binary`, but a zero divisor `b` raises cause ARITH (R164,
R165). -/
def divisive (f : Byte → Byte → Byte) (s : State) : Host.Outcome State Fault Refusal :=
  let p := pop s
  let q := pop p.2
  if p.1 = 0 then .next (raiseFault .arith s q.2) else .next (advance (push (f q.1 p.1) q.2))

end Sys2Proof.Machine
end

