-- ==== Sys2Proof/Machine/Alu.lean ====
section
/-! DEFINITION. Arithmetic, comparison and bitwise instructions (spec/43_alu.md). An arithmetic result is computed
exactly over the integers and then reduced modulo 256 (R8, R175); nothing is signed. -/

namespace Sys2Proof.Machine

/-- `wrap8(e)`: `e mod 256`, the floored modulus (R8). -/
def wrap8 (e : Int) : Byte :=
  BitVec.ofInt 8 e

/-- `F_ADD` (R161). -/
def aluAdd (a b : Byte) : Byte :=
  wrap8 ((a.toNat : Int) + (b.toNat : Int))

/-- `F_SUB`: the deeper value minus the top value (R162). -/
def aluSub (a b : Byte) : Byte :=
  wrap8 ((a.toNat : Int) - (b.toNat : Int))

/-- `F_MUL`: the low 8 bits of the product (R163). -/
def aluMul (a b : Byte) : Byte :=
  wrap8 ((a.toNat : Int) * (b.toNat : Int))

/-- The quotient `floor(a / b)` of a nonzero divisor (R164). -/
def aluDiv (a b : Byte) : Byte :=
  BitVec.ofNat 8 (a.toNat / b.toNat)

/-- The remainder `a - b * floor(a / b)` of a nonzero divisor (R165). -/
def aluRem (a b : Byte) : Byte :=
  BitVec.ofNat 8 (a.toNat - b.toNat * (a.toNat / b.toNat))

/-- `F_POW`: the integer power, the empty product 1 (R166). -/
def aluPow (a b : Byte) : Byte :=
  wrap8 ((a.toNat : Int) ^ b.toNat)

/-- The logical not: 1 if `a` is 0, else 0 (R167). -/
def aluLnot (a : Byte) : Byte :=
  truth (a == 0)

/-- `F_EQ` (R168). -/
def aluEq (a b : Byte) : Byte :=
  truth (a == b)

/-- `F_LT`: is the deeper value less than the top value, unsigned (R169)? -/
def aluLt (a b : Byte) : Byte :=
  truth (decide (a.toNat < b.toNat))

/-- `F_GT`: is the deeper value greater than the top value, unsigned (R170)? -/
def aluGt (a b : Byte) : Byte :=
  truth (decide (b.toNat < a.toNat))

/-- The bitwise complement, `255 - a` (R8, R171). -/
def aluNot (a : Byte) : Byte :=
  ~~~a

/-- `F_OR` (R172). -/
def aluOr (a b : Byte) : Byte :=
  a ||| b

/-- `F_AND` (R173). -/
def aluAnd (a b : Byte) : Byte :=
  a &&& b

/-- `F_XOR` (R174). -/
def aluXor (a b : Byte) : Byte :=
  a ^^^ b

/-- `+` (R161). -/
def execAdd (s : State) : Host.Outcome State Fault Refusal :=
  binary aluAdd s

/-- `-` (R162). -/
def execSub (s : State) : Host.Outcome State Fault Refusal :=
  binary aluSub s

/-- `*` (R163). -/
def execMul (s : State) : Host.Outcome State Fault Refusal :=
  binary aluMul s

/-- `/` (R164). -/
def execDiv (s : State) : Host.Outcome State Fault Refusal :=
  divisive aluDiv s

/-- `%` (R165). -/
def execRem (s : State) : Host.Outcome State Fault Refusal :=
  divisive aluRem s

/-- `^` (R166). -/
def execPow (s : State) : Host.Outcome State Fault Refusal :=
  binary aluPow s

/-- `!` (R167). -/
def execLnot (s : State) : Host.Outcome State Fault Refusal :=
  unary aluLnot s

/-- `=` (R168). -/
def execEq (s : State) : Host.Outcome State Fault Refusal :=
  binary aluEq s

/-- `<` (R169). -/
def execLt (s : State) : Host.Outcome State Fault Refusal :=
  binary aluLt s

/-- `>` (R170). -/
def execGt (s : State) : Host.Outcome State Fault Refusal :=
  binary aluGt s

/-- `~` (R171). -/
def execNot (s : State) : Host.Outcome State Fault Refusal :=
  unary aluNot s

/-- `|` (R172). -/
def execOr (s : State) : Host.Outcome State Fault Refusal :=
  binary aluOr s

/-- `&` (R173). -/
def execAnd (s : State) : Host.Outcome State Fault Refusal :=
  binary aluAnd s

/-- `X` (R174). -/
def execXor (s : State) : Host.Outcome State Fault Refusal :=
  binary aluXor s

end Sys2Proof.Machine
end

