-- ==== Sys2Proof/Machine/Control.lean ====
section
/-! DEFINITION. Control transfer (spec/44_control.md): absolute targets from the stack, no link, no delay slot. -/

namespace Sys2Proof.Machine

/-- `g`: pop the target and go there (R201). -/
def execJmp (s : State) : Host.Outcome State Fault Refusal :=
  let p := pop s
  .next (jump p.1 p.2)

/-- `j`: pop the target, then the condition; go there if the condition is not zero, else advance (R202). -/
def execJnz (s : State) : Host.Outcome State Fault Refusal :=
  let p := pop s
  let q := pop p.2
  .next (if condHolds q.1 then jump p.1 q.2 else advance q.2)

end Sys2Proof.Machine
end

