-- ==== Sys2Proof/Machine/HaltLiterals.lean ====
section
/-! DEFINITION. Halt, the literal digits and nibble combine (spec/40_halt_literals.md). -/

namespace Sys2Proof.Machine

/-- `x` (R100). -/
def execHalt (s : State) : Host.Outcome State Fault Refusal :=
  .next (halt s)

/-- An unrecognized byte halts as `x` does, and which byte it was is not recorded (R101). -/
def execUnrecognized (_op : Byte) (s : State) : Host.Outcome State Fault Refusal :=
  .next (halt s)

/-- The common sequence of the literal digits: push the nibble, zero-extended, and advance (R102). -/
def pushNibble (n : BitVec 4) (s : State) : Host.Outcome State Fault Refusal :=
  .next (advance (push (n.setWidth 8) s))

/-- `0` pushes 0 (R102). -/
def execPushn0 (s : State) : Host.Outcome State Fault Refusal :=
  pushNibble 0 s

/-- `1` pushes 1 (R102). -/
def execPushn1 (s : State) : Host.Outcome State Fault Refusal :=
  pushNibble 1 s

/-- `2` pushes 2 (R102). -/
def execPushn2 (s : State) : Host.Outcome State Fault Refusal :=
  pushNibble 2 s

/-- `3` pushes 3 (R102). -/
def execPushn3 (s : State) : Host.Outcome State Fault Refusal :=
  pushNibble 3 s

/-- `4` pushes 4 (R102). -/
def execPushn4 (s : State) : Host.Outcome State Fault Refusal :=
  pushNibble 4 s

/-- `5` pushes 5 (R102). -/
def execPushn5 (s : State) : Host.Outcome State Fault Refusal :=
  pushNibble 5 s

/-- `6` pushes 6 (R102). -/
def execPushn6 (s : State) : Host.Outcome State Fault Refusal :=
  pushNibble 6 s

/-- `7` pushes 7 (R102). -/
def execPushn7 (s : State) : Host.Outcome State Fault Refusal :=
  pushNibble 7 s

/-- `8` pushes 8 (R102). -/
def execPushn8 (s : State) : Host.Outcome State Fault Refusal :=
  pushNibble 8 s

/-- `9` pushes 9 (R102). -/
def execPushn9 (s : State) : Host.Outcome State Fault Refusal :=
  pushNibble 9 s

/-- `a` pushes 10 (R102). -/
def execPushn10 (s : State) : Host.Outcome State Fault Refusal :=
  pushNibble 10 s

/-- `b` pushes 11 (R102). -/
def execPushn11 (s : State) : Host.Outcome State Fault Refusal :=
  pushNibble 11 s

/-- `c` pushes 12 (R102). -/
def execPushn12 (s : State) : Host.Outcome State Fault Refusal :=
  pushNibble 12 s

/-- `d` pushes 13 (R102). -/
def execPushn13 (s : State) : Host.Outcome State Fault Refusal :=
  pushNibble 13 s

/-- `e` pushes 14 (R102). -/
def execPushn14 (s : State) : Host.Outcome State Fault Refusal :=
  pushNibble 14 s

/-- `f` pushes 15 (R102). -/
def execPushn15 (s : State) : Host.Outcome State Fault Refusal :=
  pushNibble 15 s

/-- `F_COMB`: the high nibble shifted left in 8 bits, its bits past bit 7 lost, OR the low operand unmasked (R103,
D5). -/
def combine (hi lo : Byte) : Byte :=
  (hi <<< 4) ||| lo

/-- `.`: pop `lo`, then `hi`, push their combination (R103). -/
def execComb (s : State) : Host.Outcome State Fault Refusal :=
  let p := pop s
  let q := pop p.2
  .next (advance (push (combine q.1 p.1) q.2))

end Sys2Proof.Machine
end

