-- ==== Sys2Proof/Machine/Text.lean ====
section
/-! DEFINITION. Bytes and decimal text: `Dec(v)` (spec/41_io.md R129), the prompt (R128), and `PARSE_LINE` (R122) with
its two free points (I3) left to `Config`. -/

namespace Sys2Proof.Machine

/-- The line feed byte (R121). -/
def lf : Byte := 0x0A

/-- The carriage return byte (R402). -/
def cr : Byte := 0x0D

/-- The prompt of `i`: `>` and a space (R128, D25). -/
def prompt : List Byte := [0x3E, 0x20]

/-- The ASCII digit of a value 0 to 9. -/
def digitByte (d : Nat) : Byte :=
  BitVec.ofNat 8 (0x30 + d)

/-- `Dec(v)`: the shortest decimal digits of a byte (R129, D11). -/
def dec (v : Byte) : List Byte :=
  let n := v.toNat
  if n < 10 then [digitByte n]
  else if n < 100 then [digitByte (n / 10), digitByte (n % 10)]
  else [digitByte (n / 100), digitByte (n / 10 % 10), digitByte (n % 10)]

/-- An ASCII digit, 0x30 to 0x39. -/
def isDigit (b : Byte) : Bool :=
  0x30 ≤ b.toNat && b.toNat ≤ 0x39

/-- The bytes that R122 itself treats as text, so that no `PARSE_LINE` trims them: the digits and `+` in (a) to (d), and
`-`, `x`, `a`, `b`, `c` in the examples of (d). DEDUCED (log 5). -/
def isText (b : Byte) : Bool :=
  isDigit b || b == 0x2B || b == 0x2D || b == 0x78 || b == 0x61 || b == 0x62 || b == 0x63

/-- The bytes that every `PARSE_LINE` trims: 0x09 to 0x0D and 0x20 (R122). -/
def isAsciiSpace (b : Byte) : Bool :=
  (0x09 ≤ b.toNat && b.toNat ≤ 0x0D) || b.toNat == 0x20

/-- A byte string without the six ASCII white space bytes at its ends. -/
def trimAscii (line : List Byte) : List Byte :=
  ((line.dropWhile isAsciiSpace).reverse.dropWhile isAsciiSpace).reverse

/-- Is the byte string white space throughout? ASCII white space always is; of what stands between, the parameter
decides, byte by byte or by characters of several bytes as it likes, but never of a text byte (R122, I3, I13, log 5). -/
def isBlank (run : List Byte) : Bool :=
  (trimAscii run).isEmpty || (!(trimAscii run).any isText && Config.blankRun (trimAscii run))

/-- Drop the longest white space prefix of at most `n` bytes. -/
def dropBlankPrefix : Nat → List Byte → List Byte
  | 0, line => line
  | n + 1, line => if isBlank (line.take (n + 1)) then line.drop (n + 1) else dropBlankPrefix n line

/-- Drop the longest white space suffix that begins at `k` or behind it, `n` being how many beginnings are left to try. -/
def dropBlankSuffix : Nat → Nat → List Byte → List Byte
  | 0, _, line => line
  | n + 1, k, line => if isBlank (line.drop k) then line.take k else dropBlankSuffix n (k + 1) line

/-- Remove white space from both ends, the longest run of it at each (R122). -/
def trim (line : List Byte) : List Byte :=
  let front := dropBlankPrefix line.length line
  dropBlankSuffix front.length 0 front

/-- The value of an ASCII digit. -/
def digitValue (b : Byte) : Nat :=
  b.toNat - 0x30

/-- The value of a string of decimal digits, most significant first. -/
def digitsValue (t : List Byte) : Nat :=
  t.foldl (fun n d => 10 * n + digitValue d) 0

/-- One or more ASCII digits of value at most 255; leading zeros are allowed (R122 (a) to (c)). -/
def parseDigits (t : List Byte) : Option Byte :=
  if t.isEmpty || !t.all isDigit then none
  else if digitsValue t ≤ 255 then some (BitVec.ofNat 8 (digitsValue t))
  else none

/-- The trimmed text as a decimal number; a single leading `+` (0x2B) is dropped where the parameter accepts it,
and no other place of a `+` is free (R122, I3). -/
def parseTrimmed : List Byte → Option Byte
  | [] => none
  | c :: rest => if c = 0x2B then (if Config.acceptsPlus then parseDigits rest else none) else parseDigits (c :: rest)

/-- `PARSE_LINE(s)` (R122). -/
def parseLine (line : List Byte) : Option Byte :=
  parseTrimmed (trim line)

end Sys2Proof.Machine
end

