-- ==== Sys2Proof/Machine/Ports.lean ====
section
/-! DEFINITION. The port contract (spec/41_io.md R120 to R127): the core's side of each transaction, and what the host
may do to the input stream (spec/70_reset_and_hazards.md R404). -/

namespace Sys2Proof.Machine

/-- The output port's reply to the next transaction (log 4). -/
def nextReply (s : State) : OutReply :=
  s.outReplies.headD .ok

/-- `Out.Write(bytes)`: is the answer `ok`, and the state after it. The transaction is recorded with its reply
(R124). -/
def outWrite (bytes : List Byte) (s : State) : Bool × State :=
  (nextReply s == .ok, { s with out := s.out ++ [.write bytes (nextReply s)], outReplies := s.outReplies.tail })

/-- `Out.Flush()`: delivers nothing, and is recorded as an event (R125). -/
def outFlush (s : State) : Bool × State :=
  (nextReply s == .ok, { s with out := s.out ++ [.flush (nextReply s)], outReplies := s.outReplies.tail })

/-- `Out.Dump(pc, sp, mem)`: `Out.Write` of the rendering of the state (R126). -/
def outDump (s : State) : Bool × State :=
  outWrite (Config.renderDump s.pc s.sp s.mem.cells) s

/-- The bytes of a transaction that reached the output stream (R124, R125). -/
def OutEvent.delivered : OutEvent → List Byte
  | .write bytes .ok => bytes
  | .write bytes (.fails n) => bytes.take n
  | .flush _ => []

/-- The reply of a transaction. -/
def OutEvent.reply : OutEvent → OutReply
  | .write _ r => r
  | .flush r => r

/-- The output byte sequence: what was delivered, in order (R407). -/
def outputBytes (s : State) : List Byte :=
  s.out.flatMap OutEvent.delivered

/-- The input port's answer to a request. -/
inductive InAnswer (α : Type) where
  /-- The answer carries data; `after` is the state with it consumed and no read outstanding. -/
  | data (a : α) (after : State)
  /-- The answer is `fails`; `after` is the state with what was consumed removed. -/
  | fails (after : State)
  /-- No answer yet: the read is outstanding (R127). -/
  | pending

/-- The state after a read has been answered: `rest` is left of the input, `n` bytes were consumed, nothing is
outstanding (R30, R121). -/
def answered (rest : List InItem) (n : Nat) (s : State) : State :=
  { s with input := rest, inPos := s.inPos + n, wait := false }

/-- `In.ReadByte()`: one raw byte, or a failure at a read error or at the end of the stream (R123). -/
def inReadByte (s : State) : InAnswer Byte :=
  match s.input with
  | .byte b :: rest => .data b (answered rest 1 s)
  | .readError :: rest => .fails (answered rest 0 s)
  | [] => if s.inEnded then .fails (answered [] 0 s) else .pending

/-- What a line read finds in the stream. -/
inductive LineScan where
  /-- A line (its LF included, where it has one) and what follows it. -/
  | line (bytes : List Byte) (rest : List InItem)
  /-- A failure: how many bytes were consumed, and what follows. -/
  | fails (consumed : Nat) (rest : List InItem)
  /-- The line is not complete and the stream has not ended. -/
  | pending
deriving DecidableEq, Repr

/-- Read bytes up to and including the first LF, `got` being the bytes of the line read so far (R121). A stream that
ends after at least one byte gives a line without LF (D10). -/
def scanLine (ended : Bool) : List Byte → List InItem → LineScan
  | got, .byte b :: rest => if b = lf then .line (got ++ [b]) rest else scanLine ended (got ++ [b]) rest
  | got, .readError :: rest => .fails got.length rest
  | got, [] => if ended then (if got.isEmpty then .fails 0 [] else .line got []) else .pending

/-- `In.ReadLine()` (R121). -/
def inReadLine (s : State) : InAnswer (List Byte) :=
  match scanLine s.inEnded [] s.input with
  | .line bytes rest => .data bytes (answered rest bytes.length s)
  | .fails n rest => .fails (answered rest n s)
  | .pending => .pending

/-- A read without an answer, in an instruction that began in `before` and has come to `now`: the core enters the
wait condition, with its port transactions done and nothing else changed; a core that waits already has no successor
(R30, R54, R127). DESIGN CHOICE, unsafe only for claims that count steps (log 3). -/
def awaitInput (before now : State) : Host.Outcome State Fault Refusal :=
  if before.wait then .fault .inputPending else .next { now with wait := true }

/-- The host's move: more input arrives, and the stream may end behind it (R404). Behind its end nothing arrives. -/
def supply (items : List InItem) (ends : Bool) (s : State) : State :=
  if s.inEnded then s else { s with input := s.input ++ items, inEnded := ends }

end Sys2Proof.Machine
end

