-- ==== Sys2Proof/Machine/Io.lean ====
section
/-! DEFINITION. The five I/O instructions (spec/41_io.md R128 to R132). A failed transaction raises cause IO; a read
without an answer waits. -/

namespace Sys2Proof.Machine

/-- The part of `i` from its read on: read a line, parse it, push the value (R128). `before` is the state the
instruction began in. -/
def readDecimal (before now : State) : Host.Outcome State Fault Refusal :=
  match inReadLine now with
  | .data line t =>
    match parseLine line with
    | some v => .next (advance (push v t))
    | none => .next (raiseFault .io before t)
  | .fails t => .next (raiseFault .io before t)
  | .pending => awaitInput before now

/-- `i`: prompt, flush, read a line, parse it, push it; the first failure ends it (R128, R308). Where its read is
already outstanding, the prompt and the flush have been issued, and it goes on at the read (R30). -/
def execIndec (s : State) : Host.Outcome State Fault Refusal :=
  if s.wait then readDecimal s s
  else
    let w := outWrite prompt s
    let f := outFlush w.2
    if !w.1 then .next (raiseFault .io s w.2)
    else if !f.1 then .next (raiseFault .io s f.2)
    else readDecimal s f.2

/-- The end of an instruction whose last act is an output transaction: advance on `ok`, cause IO on `fails`. -/
def finishWrite (before : State) (w : Bool × State) : Host.Outcome State Fault Refusal :=
  if w.1 then .next (advance w.2) else .next (raiseFault .io before w.2)

/-- `o`: pop a byte and write its decimal digits and a line feed (R129). -/
def execOutdec (s : State) : Host.Outcome State Fault Refusal :=
  let p := pop s
  finishWrite s (outWrite (dec p.1 ++ [lf]) p.2)

/-- `:`: read one raw byte and push it (R130). -/
def execInbyte (s : State) : Host.Outcome State Fault Refusal :=
  match inReadByte s with
  | .data b t => .next (advance (push b t))
  | .fails t => .next (raiseFault .io s t)
  | .pending => awaitInput s s

/-- `'`: pop a byte and write it raw (R131). -/
def execOutbyte (s : State) : Host.Outcome State Fault Refusal :=
  let p := pop s
  finishWrite s (outWrite [p.1] p.2)

/-- The debug dump: one write of the rendering of `pc` (its own address), `sp` and memory (R132). -/
def execDump (s : State) : Host.Outcome State Fault Refusal :=
  finishWrite s (outDump s)

end Sys2Proof.Machine
end

