-- ==== Sys2Proof/Machine/LoadStore.lean ====
section
/-! DEFINITION. Load and store (spec/45_load_store.md): the popped byte is the address, used as is (R220). -/

namespace Sys2Proof.Machine

/-- `l`: pop the address, read the cell, push it (R221). -/
def execLoad (s : State) : Host.Outcome State Fault Refusal :=
  let p := pop s
  .next (advance (push (readMem p.2 p.1) p.2))

/-- `s`: pop the address, then the value, and write the cell (R222). -/
def execStore (s : State) : Host.Outcome State Fault Refusal :=
  let p := pop s
  let q := pop p.2
  .next (advance (writeMem q.2 p.1 q.1))

end Sys2Proof.Machine
end

