-- ==== Sys2Proof/Machine/Stack.lean ====
section
/-! DEFINITION. Stack manipulation (spec/42_stack.md). -/

namespace Sys2Proof.Machine

/-- `@`: pop `b`, pop `a`, push `b`, push `a` (R140). -/
def execSwap (s : State) : Host.Outcome State Fault Refusal :=
  let p := pop s
  let q := pop p.2
  .next (advance (push q.1 (push p.1 q.2)))

/-- `(`: pop `a`, push it twice (R141). -/
def execDup (s : State) : Host.Outcome State Fault Refusal :=
  let p := pop s
  .next (advance (push p.1 (push p.1 p.2)))

/-- `)`: pop and discard; the cell is not cleared (R142). -/
def execDrop (s : State) : Host.Outcome State Fault Refusal :=
  .next (advance (pop s).2)

end Sys2Proof.Machine
end

