-- ==== Sys2Proof/Machine/Dispatch.lean ====
section
/-! DEFINITION. One arm per constructor of `Instr`: every instruction has its meaning. -/

namespace Sys2Proof.Machine

def exec (i : Instr) (s : State) : Host.Outcome State Fault Refusal :=
  match i with
  | .halt => Sys2Proof.Machine.execHalt s
  | .pushn0 => Sys2Proof.Machine.execPushn0 s
  | .pushn1 => Sys2Proof.Machine.execPushn1 s
  | .pushn2 => Sys2Proof.Machine.execPushn2 s
  | .pushn3 => Sys2Proof.Machine.execPushn3 s
  | .pushn4 => Sys2Proof.Machine.execPushn4 s
  | .pushn5 => Sys2Proof.Machine.execPushn5 s
  | .pushn6 => Sys2Proof.Machine.execPushn6 s
  | .pushn7 => Sys2Proof.Machine.execPushn7 s
  | .pushn8 => Sys2Proof.Machine.execPushn8 s
  | .pushn9 => Sys2Proof.Machine.execPushn9 s
  | .pushn10 => Sys2Proof.Machine.execPushn10 s
  | .pushn11 => Sys2Proof.Machine.execPushn11 s
  | .pushn12 => Sys2Proof.Machine.execPushn12 s
  | .pushn13 => Sys2Proof.Machine.execPushn13 s
  | .pushn14 => Sys2Proof.Machine.execPushn14 s
  | .pushn15 => Sys2Proof.Machine.execPushn15 s
  | .comb => Sys2Proof.Machine.execComb s
  | .indec => Sys2Proof.Machine.execIndec s
  | .outdec => Sys2Proof.Machine.execOutdec s
  | .inbyte => Sys2Proof.Machine.execInbyte s
  | .outbyte => Sys2Proof.Machine.execOutbyte s
  | .dump => Sys2Proof.Machine.execDump s
  | .swap => Sys2Proof.Machine.execSwap s
  | .dup => Sys2Proof.Machine.execDup s
  | .drop => Sys2Proof.Machine.execDrop s
  | .add => Sys2Proof.Machine.execAdd s
  | .sub => Sys2Proof.Machine.execSub s
  | .mul => Sys2Proof.Machine.execMul s
  | .div => Sys2Proof.Machine.execDiv s
  | .rem => Sys2Proof.Machine.execRem s
  | .pow => Sys2Proof.Machine.execPow s
  | .lnot => Sys2Proof.Machine.execLnot s
  | .eq => Sys2Proof.Machine.execEq s
  | .lt => Sys2Proof.Machine.execLt s
  | .gt => Sys2Proof.Machine.execGt s
  | .not => Sys2Proof.Machine.execNot s
  | .or => Sys2Proof.Machine.execOr s
  | .and => Sys2Proof.Machine.execAnd s
  | .xor => Sys2Proof.Machine.execXor s
  | .jmp => Sys2Proof.Machine.execJmp s
  | .jnz => Sys2Proof.Machine.execJnz s
  | .load => Sys2Proof.Machine.execLoad s
  | .store => Sys2Proof.Machine.execStore s
  | .unrecognized op => Sys2Proof.Machine.execUnrecognized op s

end Sys2Proof.Machine
end

