-- ==== Sys2Proof/Machine/Cycle.lean ====
section
/-! DEFINITION. The step cycle (spec/30_encoding.md R68, R70). -/

namespace Sys2Proof.Machine

/-- The instruction at `pc`: fetched afresh and decoded (R53, R68, R69). -/
def current (s : State) : Instr :=
  decode (fetch s)

/-- A Step requested in a terminal run state does nothing (R70, D21). DESIGN CHOICE among R70's two forms, safe
(log 8). -/
def terminalStep (s : State) : Host.Outcome State Fault Refusal :=
  .next s

/-- One Step: fetch, decode, execute (R68). Every meaning moves `pc` itself, as its rule's pseudocode does. -/
def cycle (s : State) : Host.Outcome State Fault Refusal :=
  if s.rs = .running then exec (current s) s else terminalStep s

/-- The state with an opcode byte stored where the next Step fetches, and RUNNING, as a fetch needs (R68). It
stands for the host's load of a program (log 1). -/
def placeOpcode (op : Byte) (s : State) : State :=
  { writeMem s s.pc op with rs := .running }

end Sys2Proof.Machine
end

