-- ==== Sys2Proof/Machine/Step.lean ====
section
/-! DEFINITION. The machine's one step, and the placing of one instruction where it fetches. -/

namespace Sys2Proof.Machine

/-- One Step of the core (R68). -/
def step (s : State) : Host.Outcome State Fault Refusal :=
  cycle s

/-- The state in which the very next step runs the table row's instruction: its one byte at `mem[pc]`, RUNNING. -/
def State.withFetchWord (s : State) (nbits w : Nat) : State :=
  placeOpcode (tableByte nbits w) s

end Sys2Proof.Machine
end

