-- ==== Sys2Proof/Machine/Launch.lean ====
section
/-! DEFINITION. How the host starts a run (spec/70_reset_and_hazards.md R400 to R406): a fresh machine from an image,
with the streams the host gives it. -/

namespace Sys2Proof.Machine

/-- What the host brings to a machine: its input stream and the replies of its output port (R401, R404). -/
structure HostStreams where
  /-- The input that has arrived. -/
  input : List InItem
  /-- Has the stream ended behind it? -/
  inEnded : Bool
  /-- The replies to the coming output transactions, `ok` beyond the list. -/
  outReplies : List OutReply
deriving DecidableEq, Repr

/-- Copy a byte string into memory, its first byte at address `a` (R400). -/
def Memory.load (m : Memory) (a : Nat) : List Byte → Memory
  | [] => m
  | b :: rest => Memory.load (m.write a b) (a + 1) rest

/-- `Reset(img)` of R400. -/
def resetWith (h : HostStreams) (img : List Byte) : State :=
  { State.reset with
    mem := Memory.load [] 0 img, input := h.input, inEnded := h.inEnded, outReplies := h.outReplies }

/-- Start a run from an image; one of more than 256 bytes is refused (R402, D13). -/
def launch (h : HostStreams) (img : List Byte) : Host.Outcome State Fault Refusal :=
  if img.length ≤ 256 then .next (resetWith h img) else .refused (.imageTooLong img.length)

/-- The spec's default `LOAD_IMAGE`: the line without its terminating LF, and without a CR just before it (R402, D13). -/
def dropTerminator (line : List Byte) : List Byte :=
  match line.reverse with
  | [] => []
  | b :: rest =>
    if b = lf then
      match rest with
      | [] => []
      | c :: more => if c = cr then more.reverse else (c :: more).reverse
    else line

/-- Start a run from a program line, turned into an image by the given `LOAD_IMAGE` (R7, R402). -/
def launchLineWith (load : List Byte → List Byte) (h : HostStreams) (line : List Byte) :
    Host.Outcome State Fault Refusal :=
  launch h (load line)

/-- Start a run from a program line: `LOAD_IMAGE` is the host's, a parameter (R7, R402, D13, I18, log 11). -/
def launchLine (h : HostStreams) (line : List Byte) : Host.Outcome State Fault Refusal :=
  launchLineWith Config.loadImage h line

/-- Start a run from a program line under the spec's default `LOAD_IMAGE` (R402, D13). -/
def launchLineDefault (h : HostStreams) (line : List Byte) : Host.Outcome State Fault Refusal :=
  launchLineWith dropTerminator h line

/-- The streams of the next machine where the core's input is the stream the host reads its program lines from: what
`old` left of the input, less the `hostRead` items the host has read itself, and then what has arrived since. -/
def carriedStreams (old : State) (hostRead : Nat) (h : HostStreams) : HostStreams :=
  let s := supply h.input h.inEnded { old with input := old.input.drop hostRead }
  { h with input := s.input, inEnded := s.inEnded }

/-- Start the next run after `old` has ended: nothing of it survives but, where `INPUT_SHARED` holds, what it left of
the input (R406, D22). DESIGN CHOICE of the form, safe (log 12). -/
def relaunch (old : State) (hostRead : Nat) (h : HostStreams) (img : List Byte) : Host.Outcome State Fault Refusal :=
  launch (if Config.inputShared then carriedStreams old hostRead h else h) img

end Sys2Proof.Machine
end

