-- ==== Sys2Proof/Safety.lean ====
section
/-! DEFINITION. The terms claims are stated in: what a Step returns to the host, the outcome of a run, what an
instruction leaves unchanged, and the invariant every step keeps. -/

namespace Sys2Proof.Machine

/-- What a Step returns to the host (R68, R70): none while its read is outstanding, for it has not completed (R54). -/
def stepResult (s : State) : Option StepResult :=
  match step s with
  | .next t => if t.wait then none else some t.rs.result
  | .fault _ => none
  | .refused _ => none

/-- The observable outcome of a run (R407). -/
structure RunOutcome where
  /-- HALTED, FAULT_IO or FAULT_ARITH. -/
  result : RunState
  /-- The output byte sequence. -/
  output : List Byte
  /-- How many input bytes were consumed. -/
  consumed : Nat
deriving DecidableEq, Repr

/-- The observable outcome of the run that ended in this state. -/
def outcomeOf (s : State) : RunOutcome :=
  { result := s.rs, output := outputBytes s, consumed := s.inPos }

/-- The ports' side of the state is unchanged: input, position, output, replies, wait condition. -/
def samePorts (s t : State) : Prop :=
  t.wait = s.wait ∧ t.input = s.input ∧ t.inEnded = s.inEnded ∧ t.inPos = s.inPos ∧ t.out = s.out ∧
    t.outReplies = s.outReplies

/-- Every cell reads as before. -/
def sameMemory (s t : State) : Prop :=
  ∀ a : Addr, readMem t a = readMem s a

/-- Every cell but `a` reads as before, and `a` reads `v`. -/
def onlyCell (a : Addr) (v : Byte) (s t : State) : Prop :=
  readMem t a = v ∧ ∀ c : Addr, c ≠ a → readMem t c = readMem s c

/-- The value on top of the stack: the cell above `sp` (R45). -/
def topCell (s : State) : Byte :=
  readMem s (s.sp + 1)

/-- The value below the top of the stack. -/
def belowCell (s : State) : Byte :=
  readMem s (s.sp + 2)

/-- The first popped operand, `b` (R160). -/
def operandB (s : State) : Byte :=
  (pop s).1

/-- The second popped operand, `a` (R160). -/
def operandA (s : State) : Byte :=
  (pop (pop s).2).1

/-- The state after both operands have been popped. -/
def afterTwoPops (s : State) : State :=
  (pop (pop s).2).2

/-- The instruction takes two operands off the stack, pushes `r` and advances, and does nothing else. -/
def deliversOverTwo (i : Instr) (s : State) (r : Byte) : Prop :=
  exec i s = .next (advance (push r (afterTwoPops s)))

/-- The instruction completes: `pc` advances, `sp` becomes `sp'`, the cell `a` becomes `v`, and nothing else
changes. -/
def writesOneCell (i : Instr) (s : State) (sp' : Addr) (a : Addr) (v : Byte) : Prop :=
  ∃ t, exec i s = .next t ∧ t.pc = s.pc + 1 ∧ t.sp = sp' ∧ t.rs = s.rs ∧ samePorts s t ∧ onlyCell a v s t

/-- Push a list of bytes, the first one first. -/
def pushAll : List Byte → State → State
  | [], s => s
  | v :: rest, s => pushAll rest (push v s)

/-- Pop `n` bytes, the first popped first. -/
def popAll : Nat → State → List Byte × State
  | 0, s => ([], s)
  | n + 1, s => ((pop s).1 :: (popAll n (pop s).2).1, (popAll n (pop s).2).2)

/-- The opcode map of R62, row by row. -/
def opcodeMap : List (Byte × Instr) :=
  [
    (0x78, .halt), (0x30, .pushn0), (0x31, .pushn1), (0x32, .pushn2), (0x33, .pushn3), (0x34, .pushn4),
    (0x35, .pushn5), (0x36, .pushn6), (0x37, .pushn7), (0x38, .pushn8), (0x39, .pushn9), (0x61, .pushn10),
    (0x62, .pushn11), (0x63, .pushn12), (0x64, .pushn13), (0x65, .pushn14), (0x66, .pushn15), (0x2E, .comb),
    (0x69, .indec), (0x6F, .outdec), (0x3A, .inbyte), (0x27, .outbyte), (0x22, .dump), (0x40, .swap),
    (0x28, .dup), (0x29, .drop), (0x2B, .add), (0x2D, .sub), (0x2A, .mul), (0x2F, .div), (0x25, .rem),
    (0x5E, .pow), (0x21, .lnot), (0x3D, .eq), (0x3C, .lt), (0x3E, .gt), (0x7E, .not), (0x7C, .or),
    (0x26, .and), (0x58, .xor), (0x67, .jmp), (0x6A, .jnz), (0x6C, .load), (0x73, .store)
  ]

/-- The column "Net sp" of R62: what an instruction that completes adds to `sp`, modulo 256. -/
def netSp : Instr → Byte
  | .pushn0 | .pushn1 | .pushn2 | .pushn3 | .pushn4 | .pushn5 | .pushn6 | .pushn7 => -1
  | .pushn8 | .pushn9 | .pushn10 | .pushn11 | .pushn12 | .pushn13 | .pushn14 | .pushn15 => -1
  | .indec | .inbyte | .dup => -1
  | .comb | .outdec | .outbyte | .drop | .jmp => 1
  | .add | .sub | .mul | .div | .rem | .pow | .eq | .lt | .gt | .or | .and | .xor => 1
  | .jnz | .store => 2
  | .halt | .unrecognized _ | .dump | .swap | .lnot | .not | .load => 0

/-- A line answers the read: `line` stands in front of the input, with its LF, or without one where the stream ends
behind it (R121, D10); `rest` is what follows. -/
def lineAhead (s : State) (line : List Byte) (rest : List InItem) : Prop :=
  (∃ l, lf ∉ l ∧ line = l ++ [lf] ∧ s.input = l.map .byte ++ .byte lf :: rest) ∨
    (line ≠ [] ∧ lf ∉ line ∧ s.input = line.map .byte ∧ rest = [] ∧ s.inEnded = true)

/-- The line read fails: a read error stands before any LF, with `n` bytes in front of it, or the stream has ended with
no byte left (R121). -/
def lineFails (s : State) (n : Nat) (rest : List InItem) : Prop :=
  (∃ l : List Byte, lf ∉ l ∧ s.input = l.map .byte ++ .readError :: rest ∧ n = l.length) ∨
    (s.input = [] ∧ s.inEnded = true ∧ n = 0 ∧ rest = [])

/-- The line read has no answer yet: what has arrived holds no LF and no read error, and the stream has not ended
(R127). -/
def linePending (s : State) : Prop :=
  ∃ l : List Byte, lf ∉ l ∧ s.input = l.map .byte ∧ s.inEnded = false

/-- The port answers `ok` to the next `n` output transactions. -/
def repliesOk (n : Nat) (s : State) : Prop :=
  ∀ r ∈ s.outReplies.take n, r = .ok

/-- The number of bytes among items of the input stream. -/
def countBytes : List InItem → Nat
  | [] => 0
  | .byte _ :: rest => countBytes rest + 1
  | .readError :: rest => countBytes rest

/-- The core's own registers and memory agree: all but the ports' side of the state. -/
def sameCore (s t : State) : Prop :=
  t.mem = s.mem ∧ t.pc = s.pc ∧ t.sp = s.sp ∧ t.rs = s.rs

/-- The two instructions that read the input port. -/
def readsInput (i : Instr) : Prop :=
  i = .indec ∨ i = .inbyte

/-- The four instructions that write the output port. -/
def writesOutput (i : Instr) : Prop :=
  i = .indec ∨ i = .outdec ∨ i = .outbyte ∨ i = .dump

/-- The instructions that use a port (R312). -/
def usesPorts (i : Instr) : Prop :=
  readsInput i ∨ writesOutput i

/-- The instructions that divide. -/
def divides (i : Instr) : Prop :=
  i = .div ∨ i = .rem

/-- The instructions that halt: `x` and the unrecognized bytes (R100, R101). -/
def halts (i : Instr) : Prop :=
  i = .halt ∨ ∃ op, i = .unrecognized op

/-- The output events of the prompt of `i`, both answered `ok`. -/
def promptEvents : List OutEvent :=
  [.write prompt .ok, .flush .ok]

/-- The invariant of the machine:
memory has its canonical form;
a core that waits is RUNNING, at an instruction that reads input, with the prompt of `i` issued;
a terminal state stands at the instruction that caused it (R29, R304, R305), a division at its zero divisor;
and of all output transactions only the last can have failed, and only in FAULT_IO. -/
structure Inv (s : State) : Prop where
  canonical : s.mem.wf = true
  waiting : s.wait = true → s.rs = .running ∧ readsInput (current s)
  prompted : s.wait = true → current s = .indec → ∃ before, s.out = before ++ promptEvents
  atHalt : s.rs = .halted → halts (current s)
  atIoFault : s.rs = .faultIO → usesPorts (current s)
  atArithFault : s.rs = .faultArith → divides (current s) ∧ (pop s).1 = 0
  repliesOk : s.rs ≠ .faultIO → ∀ e ∈ s.out, e.reply = .ok
  onlyLastFails : ∀ e ∈ s.out.dropLast, e.reply = .ok

end Sys2Proof.Machine
end

