-- ==== Sys2Proof/Certificates/Slice0/Obligations.lean ====
section
/-! DEFINITION. The statements for the provers. Where a docstring says "the spec's own choice D<n>", the clause rests on
a decision of spec/92_eei_decisions.md and not on the source; where it names a log entry, the clause is the model's. -/

open Sys2Proof Sys2Proof.Machine

/-! ### Encoding and the step cycle -/

/-- A few words written out from the encoding table of R62, one of each family, decode to their instructions. -/
def Obligations.OpcodeWordsDecode : Prop :=
  decode 0b01111000 = .halt ∧ decode 0b00110000 = .pushn0 ∧ decode 0b01100110 = .pushn15 ∧
  decode 0b00101110 = .comb ∧ decode 0b01101001 = .indec ∧ decode 0b00100010 = .dump ∧ decode 0b01000000 = .swap ∧
  decode 0b00101011 = .add ∧ decode 0b01011000 = .xor ∧ decode 0b01100111 = .jmp ∧ decode 0b01101010 = .jnz ∧
  decode 0b01101100 = .load ∧ decode 0b01110011 = .store ∧ decode 0b01000001 = .unrecognized 0b01000001

/-- R69: the decoder is total; it follows the map of R62 row by row, and every byte of R63's list halts; each of the
256 byte values is in exactly one of the two. -/
def Obligations.DecodeFollowsTheOpcodeMap : Prop :=
  (∀ row ∈ opcodeMap, decode row.1 = row.2 ∧ unrecognizedByte row.1 = false) ∧ opcodeMap.length = 44 ∧
  (∀ op : Byte, unrecognizedByte op = true → decode op = .unrecognized op ∧
    ∀ s, exec (decode op) s = exec .halt s) ∧
  ∀ op : Byte, unrecognizedByte op = true ∨ ∃ row ∈ opcodeMap, row.1 = op

/-- Decoding and encoding agree in both directions, on one byte. -/
def Obligations.DecodeAndEncodeAreInverse : Prop :=
  (∀ i : Instr, i.wellFormed = true → decode (encode i) = i) ∧
  ∀ op : Byte, (decode op).wellFormed = true ∧ encode (decode op) = op

/-- A program of well-formed instructions, encoded and launched, is fetched back instruction by instruction at every
address; past its end every address holds the unrecognized byte 0x00. The image starts at address 0 (R400) and `pc` is
0 (the spec's own choice D2). -/
def Obligations.LoadedProgramIsFetchedBack : Prop :=
  ∀ (h : HostStreams) (program : List Instr), (∀ i ∈ program, i.wellFormed = true) → program.length ≤ 256 →
    ∃ s, launch h (encodeProgram program) = .next s ∧ s.pc = 0 ∧
      ∀ k : Nat, k < 256 → current (jump (BitVec.ofNat 8 k) s) = program.getD k (.unrecognized 0x00)

/-- A Step in RUNNING runs the instruction whose byte stands at `pc`: `step` is `exec` of it, with nothing around it
(R68). -/
def Obligations.StepRunsTheDecodedInstruction : Prop :=
  ∀ s : State, s.rs = .running →
    step s = exec (decode (readMem s s.pc)) s ∧
    ∀ i : Instr, i.wellFormed = true → readMem s s.pc = encode i → step s = exec i s

/-- A Step in a terminal state changes nothing (the spec's own choice D21 of R70, log 8), nor does any number of
them. -/
def Obligations.TerminalStatesStayPut : Prop :=
  ∀ (s : State) (n : Nat), s.rs ≠ .running → step s = .next s ∧ core.run n s = .next s

/-- Every Step has a successor, but for one case: a core that already waits, at an instruction that reads input, with no
answer (R30, R65; the model's form of the wait, log 3). No step refuses. That a terminal state has a successor, itself,
is the spec's own choice D21 of R70, which allows none instead (log 8). -/
def Obligations.OnlyAWaitingReadHasNoSuccessor : Prop :=
  ∀ s : State, (∃ t, step s = .next t) ∨
    (step s = .fault .inputPending ∧ s.rs = .running ∧ s.wait = true ∧ s.inEnded = false ∧
      (current s = .indec ∧ linePending s ∨ current s = .inbyte ∧ s.input = []))

/-! ### Reset and launch -/

/-- What reset with the empty image leaves: every cell 0x00, `sp` 0xFF, RUNNING, not waiting, no output; `pc` 0x00 is
the spec's own choice D2, the empty input and the replies are the model's (logs 2 and 4) and are not stated. -/
def Obligations.ResetLeavesTheSpecsValues : Prop :=
  (∀ a : Addr, readMem State.reset a = 0x00) ∧ State.reset.sp = 0xFF ∧ State.reset.pc = 0x00 ∧
  State.reset.rs = .running ∧ State.reset.wait = false ∧ State.reset.out = []

/-- A launch with at most 256 bytes gives the image at 0 and up, zeros behind it, and the reset registers; a longer
image is refused (the spec's own choice D13). -/
def Obligations.LaunchLoadsTheImage : Prop :=
  ∀ (h : HostStreams) (img : List Byte),
    (img.length ≤ 256 → ∃ s, launch h img = .next s ∧
      (∀ k : Nat, k < 256 → readMem s (BitVec.ofNat 8 k) = img.getD k 0x00) ∧
      s.pc = 0x00 ∧ s.sp = 0xFF ∧ s.rs = .running ∧ s.wait = false ∧ s.out = [] ∧
      s.input = h.input ∧ s.inEnded = h.inEnded) ∧
    (256 < img.length → launch h img = .refused (.imageTooLong img.length))

/-- A program line is launched as the image `LOAD_IMAGE` makes of it, a parameter (log 11). The spec's default, its own
choice D13, drops a final LF and a CR just before it, and nothing else. -/
def Obligations.ProgramLineIsLaunchedAsItsImage : Prop :=
  (∀ (h : HostStreams) (line : List Byte), launchLine h line = launch h (Config.loadImage line)) ∧
  (∀ (h : HostStreams) (text : List Byte), launchLineDefault h (text ++ [cr, lf]) = launch h text) ∧
  (∀ (h : HostStreams) (text : List Byte), text.getLast? ≠ some cr →
    launchLineDefault h (text ++ [lf]) = launch h text) ∧
  ∀ (h : HostStreams) (line : List Byte), line.getLast? ≠ some lf → launchLineDefault h line = launch h line

/-- Nothing of a run survives into the next one but what it left of the input: two old machines that left the same
input give the same new machine (R406). -/
def Obligations.OnlyInputSurvivesARun : Prop :=
  ∀ (old old' : State) (n : Nat) (h : HostStreams) (img : List Byte),
    old.input = old'.input → old.inEnded = old'.inEnded → relaunch old n h img = relaunch old' n h img

/-! ### Memory and the stack -/

/-- A read gives the last value written to the cell, and a write to one cell leaves every other cell (R42). -/
def Obligations.ReadGivesTheLastWrite : Prop :=
  ∀ (s : State) (a : Addr) (v : Byte), onlyCell a v s (writeMem s a v) ∧ sameMemory s (jump a s)

/-- Two memories in canonical form that read the same at all 256 addresses are the same list. -/
def Obligations.CanonicalMemoryIsDeterminedByItsCells : Prop :=
  ∀ m n : Memory, m.wf = true → n.wf = true → (∀ a : Nat, a < 256 → m.read a = n.read a) → m = n

/-- `Push`: it writes exactly the cell at `sp` and moves `sp` down by one, modulo 256, and nothing else changes. That
the cell is written before `sp` moves is the spec's own choice D1. -/
def Obligations.PushWritesTheFreeCell : Prop :=
  ∀ (v : Byte) (s : State), onlyCell s.sp v s (push v s) ∧ (push v s).sp.toNat = (s.sp.toNat + 255) % 256 ∧
    (push v s).pc = s.pc ∧ (push v s).rs = s.rs ∧ samePorts s (push v s)

/-- `Pop`: it moves `sp` up by one, modulo 256, reads that cell and writes none. That `sp` moves before the read is the
spec's own choice D1. -/
def Obligations.PopReadsTheCellAbove : Prop :=
  ∀ s : State, (pop s).1 = readMem s (pop s).2.sp ∧ (pop s).2.sp.toNat = (s.sp.toNat + 1) % 256 ∧
    (pop s).2.mem = s.mem ∧ (pop s).2.pc = s.pc ∧ (pop s).2.rs = s.rs ∧ samePorts s (pop s).2

/-- Up to 256 pushes followed by as many pops give the values back in reverse order and restore `sp` (W7 of
95_test_vectors, for every start and every number of values). -/
def Obligations.PushedBytesPopInReverse : Prop :=
  ∀ (s : State) (vs : List Byte), vs.length ≤ 256 →
    (popAll vs.length (pushAll vs s)).1 = vs.reverse ∧ (popAll vs.length (pushAll vs s)).2.sp = s.sp

/-- R53: a store is seen by the next fetch of its address, and so is a push, whichever cell it writes; a program that
stores into the byte after its `s` runs the byte it stored; every Step fetches `mem[pc]` afresh. -/
def Obligations.FetchSeesTheStoredByte : Prop :=
  (∀ (s : State) (a : Addr) (v : Byte), current (jump a (writeMem s a v)) = decode v) ∧
  (∀ (s : State) (v : Byte) (a : Addr), current (jump a (push v s)) = decode (readMem (push v s) a)) ∧
  (∀ s t : State, s.rs = .running → current s = .store → operandB s = s.pc + 1 → step s = .next t →
    step t = exec (decode (operandA s)) t) ∧
  ∀ s : State, s.rs = .running → step s = exec (decode (readMem s s.pc)) s

/-- Where an instruction completes, `sp` has moved by the column "Net sp" of R62's table, modulo 256. -/
def Obligations.CompletedInstructionMovesSpByTheTable : Prop :=
  ∀ (i : Instr) (s t : State), exec i s = .next t → t.rs = .running → t.wait = false → t.sp = s.sp + netSp i

/-! ### Halt, literals, combine -/

/-- `x` and every unrecognized byte set `rs` to HALTED and change nothing else: no cell, no register, no output. That
`pc` is not advanced is the spec's own choice D6. -/
def Obligations.HaltChangesOnlyTheRunState : Prop :=
  (∀ s : State, exec .halt s = .next { s with rs := .halted }) ∧
  ∀ (op : Byte) (s : State), exec (.unrecognized op) s = .next { s with rs := .halted }

/-- R102 and R64: the digit bytes push their nibble, zero-extended, and advance; they pop nothing and do nothing
else. -/
def Obligations.LiteralDigitsPushTheirNibble : Prop :=
  ∀ row ∈ ([(0x30, .pushn0, 0), (0x31, .pushn1, 1), (0x32, .pushn2, 2), (0x33, .pushn3, 3), (0x34, .pushn4, 4),
      (0x35, .pushn5, 5), (0x36, .pushn6, 6), (0x37, .pushn7, 7), (0x38, .pushn8, 8), (0x39, .pushn9, 9),
      (0x61, .pushn10, 10), (0x62, .pushn11, 11), (0x63, .pushn12, 12), (0x64, .pushn13, 13), (0x65, .pushn14, 14),
      (0x66, .pushn15, 15)] : List (Byte × Instr × Byte)),
    decode row.1 = row.2.1 ∧ ∀ s : State, exec row.2.1 s = .next (advance (push row.2.2 s))

/-- `.`: the low nibble of the deeper operand becomes the high nibble, OR the top operand unmasked; the result takes the
deeper operand's cell. Operands above 15 are the spec's own choice D5, the cells D1. -/
def Obligations.NibbleCombineOnAnyBytes : Prop :=
  ∀ s : State,
    writesOneCell .comb s (s.sp + 1) (s.sp + 2)
      (BitVec.ofNat 8 ((belowCell s).toNat * 16) ||| topCell s)

/-! ### The ALU -/

/-- R161, R162, R163: the sum, the difference (deeper minus top) and the product, computed exactly and reduced modulo
256, are pushed over the two popped operands; nothing else changes. -/
def Obligations.ArithmeticWrapsModulo256 : Prop :=
  decode 0x2B = .add ∧ decode 0x2D = .sub ∧ decode 0x2A = .mul ∧
  ∀ s : State,
    (∃ r : Byte, r.toNat = ((operandA s).toNat + (operandB s).toNat) % 256 ∧ deliversOverTwo .add s r) ∧
    (∃ r : Byte, (r.toNat : Int) = ((operandA s).toNat - (operandB s).toNat : Int) % 256 ∧
      deliversOverTwo .sub s r) ∧
    (∃ r : Byte, r.toNat = ((operandA s).toNat * (operandB s).toNat) % 256 ∧ deliversOverTwo .mul s r)

/-- Division and remainder by a nonzero divisor: the quotient and the remainder of the unsigned operands, with
`a = b * (a / b) + (a % b)`. -/
def Obligations.DivisionByANonzeroDivisor : Prop :=
  decode 0x2F = .div ∧ decode 0x25 = .rem ∧
  ∀ s : State, operandB s ≠ 0 → ∃ q r : Byte,
    (operandA s).toNat = (operandB s).toNat * q.toNat + r.toNat ∧ r.toNat < (operandB s).toNat ∧
    deliversOverTwo .div s q ∧ deliversOverTwo .rem s r

/-- Division and remainder by zero, 0 / 0 included, take cause ARITH (the spec's own choice D3): `rs` becomes
FAULT_ARITH, and `pc`, `sp` and memory are as before the instruction (D7). -/
def Obligations.DivisionByZeroTakesCauseArith : Prop :=
  ∀ s : State, operandB s = 0 →
    exec .div s = .next { s with rs := .faultArith, wait := false } ∧
    exec .rem s = .next { s with rs := .faultArith, wait := false }

/-- `^`: the integer power of the deeper operand to the top operand, reduced modulo 256; the power 0 gives 1 (the spec's
own choice D4, 0 ^ 0 included). -/
def Obligations.PowerIsReducedModulo256 : Prop :=
  decode 0x5E = .pow ∧
  ∀ s : State, ∃ r : Byte, r.toNat = ((operandA s).toNat ^ (operandB s).toNat) % 256 ∧ deliversOverTwo .pow s r ∧
    (operandB s = 0 → r = 1)

/-- The power is the same as multiplying modulo 256 at every step (R166). -/
def Obligations.PowerIsRepeatedWrappingProduct : Prop :=
  ∀ a b : Byte, aluPow a b = (List.replicate b.toNat a).foldl aluMul 1

/-- R167: the logical not pushes 1 where its operand is 0, else 0, and changes nothing else. -/
def Obligations.LogicalNotPushesOneOrZero : Prop :=
  decode 0x21 = .lnot ∧
  ∀ s : State, exec .lnot s = .next (advance (push (if (pop s).1 = 0 then 1 else 0) (pop s).2))

/-- R168, R169, R170: the comparisons are unsigned, of the deeper operand with the top one, and push exactly 1 or 0. -/
def Obligations.ComparisonsAreUnsigned : Prop :=
  decode 0x3D = .eq ∧ decode 0x3C = .lt ∧ decode 0x3E = .gt ∧
  ∀ s : State,
    deliversOverTwo .eq s (if operandA s = operandB s then 1 else 0) ∧
    deliversOverTwo .lt s (if (operandA s).toNat < (operandB s).toNat then 1 else 0) ∧
    deliversOverTwo .gt s (if (operandA s).toNat > (operandB s).toNat then 1 else 0)

/-- The bitwise instructions, bit by bit; the complement is 255 minus its operand. That `~` pops one operand and the
others two is the spec's own choice D18. -/
def Obligations.BitwiseResultsBitByBit : Prop :=
  ∀ s : State,
    (∃ r : Byte, r.toNat = 255 - (pop s).1.toNat ∧ exec .not s = .next (advance (push r (pop s).2))) ∧
    (∃ r : Byte, (∀ k : Nat, r.getLsbD k = ((operandA s).getLsbD k || (operandB s).getLsbD k)) ∧
      deliversOverTwo .or s r) ∧
    (∃ r : Byte, (∀ k : Nat, r.getLsbD k = ((operandA s).getLsbD k && (operandB s).getLsbD k)) ∧
      deliversOverTwo .and s r) ∧
    (∃ r : Byte, (∀ k : Nat, r.getLsbD k = ((operandA s).getLsbD k ^^ (operandB s).getLsbD k)) ∧
      deliversOverTwo .xor s r)

/-- The net effect in cells of every instruction that leaves one result on the stack: the cell it lies in, `sp`, `pc`,
and that every other cell, the run state and the ports are as before. The cells follow from the spec's own choice D1;
division and remainder have it for a nonzero divisor (D3). -/
def Obligations.StackResultsLandInOneCell : Prop :=
  (∀ row ∈ ([(.add, aluAdd), (.sub, aluSub), (.mul, aluMul), (.pow, aluPow), (.eq, aluEq), (.lt, aluLt), (.gt, aluGt),
      (.or, aluOr), (.and, aluAnd), (.xor, aluXor)] : List (Instr × (Byte → Byte → Byte))),
    ∀ s : State, writesOneCell row.1 s (s.sp + 1) (s.sp + 2) (row.2 (belowCell s) (topCell s))) ∧
  (∀ row ∈ ([(.div, aluDiv), (.rem, aluRem)] : List (Instr × (Byte → Byte → Byte))),
    ∀ s : State, topCell s ≠ 0 →
      writesOneCell row.1 s (s.sp + 1) (s.sp + 2) (row.2 (belowCell s) (topCell s))) ∧
  (∀ row ∈ ([(.lnot, aluLnot), (.not, aluNot)] : List (Instr × (Byte → Byte))),
    ∀ s : State, writesOneCell row.1 s s.sp (s.sp + 1) (row.2 (topCell s))) ∧
  (∀ row ∈ ([(.pushn0, 0), (.pushn1, 1), (.pushn2, 2), (.pushn3, 3), (.pushn4, 4), (.pushn5, 5), (.pushn6, 6),
      (.pushn7, 7), (.pushn8, 8), (.pushn9, 9), (.pushn10, 10), (.pushn11, 11), (.pushn12, 12), (.pushn13, 13),
      (.pushn14, 14), (.pushn15, 15)] : List (Instr × Byte)),
    ∀ s : State, writesOneCell row.1 s (s.sp - 1) s.sp row.2)

/-! ### Stack manipulation, control, load and store -/

/-- R140: `@` exchanges the two cells above `sp` and changes nothing else; `sp` ends where it started, and equal
operands leave memory as it is. -/
def Obligations.SwapExchangesTheTopTwo : Prop :=
  decode 0x40 = .swap ∧
  ∀ s : State, ∃ t, exec .swap s = .next t ∧
    t = advance (push (operandA s) (push (operandB s) (afterTwoPops s))) ∧
    t.pc = s.pc + 1 ∧ t.sp = s.sp ∧ t.rs = s.rs ∧ samePorts s t ∧
    readMem t (s.sp + 1) = readMem s (s.sp + 2) ∧ readMem t (s.sp + 2) = readMem s (s.sp + 1) ∧
    (∀ c : Addr, c ≠ s.sp + 1 → c ≠ s.sp + 2 → readMem t c = readMem s c) ∧
    (operandA s = operandB s → sameMemory s t)

/-- R141: `(` copies the cell above `sp` into the cell at `sp` and moves `sp` down; nothing else changes. -/
def Obligations.DupCopiesTheTop : Prop :=
  decode 0x28 = .dup ∧
  ∀ s : State, writesOneCell .dup s (s.sp - 1) s.sp (readMem s (s.sp + 1))

/-- R142: `)` moves `sp` up and changes no cell. -/
def Obligations.DropOnlyMovesSp : Prop :=
  decode 0x29 = .drop ∧
  ∀ s : State, exec .drop s = .next { s with sp := s.sp + 1, pc := s.pc + 1 }

/-- R201: `g` pops the target, whatever byte is there, and goes to it without an advance; no cell changes, and the next
Step runs the instruction at the target. -/
def Obligations.JumpGoesToThePoppedAddress : Prop :=
  decode 0x67 = .jmp ∧
  ∀ s : State, ∃ t, exec .jmp s = .next t ∧ t = { s with sp := s.sp + 1, pc := readMem s (s.sp + 1) } ∧
    (s.rs = .running → step t = exec (decode (readMem s (readMem s (s.sp + 1)))) t)

/-- R202: `j` pops the target and then the condition on both paths; every nonzero condition takes the jump, zero
advances; no cell changes. -/
def Obligations.ConditionalJumpTestsForNonzero : Prop :=
  decode 0x6A = .jnz ∧
  ∀ s : State, exec .jnz s = .next { s with
    sp := s.sp + 2
    pc := if operandA s = 0 then s.pc + 1 else operandB s }

/-- R221: `l` replaces the popped address by the byte at it, read before the push; `sp` ends unchanged. -/
def Obligations.LoadReplacesTheAddressByTheByte : Prop :=
  decode 0x6C = .load ∧
  ∀ s : State, exec .load s = .next (advance (push (readMem s (pop s).1) (pop s).2)) ∧
    writesOneCell .load s s.sp (s.sp + 1) (readMem s (pop s).1)

/-- R222: `s` pops the address and then the value, writes that cell, whichever it is, and raises `sp` by 2. -/
def Obligations.StoreWritesThePoppedAddress : Prop :=
  decode 0x73 = .store ∧
  ∀ s : State, writesOneCell .store s (s.sp + 2) (operandB s) (operandA s)

/-! ### The ports -/

/-- `In.ReadLine()`: exactly one of three cases holds of the input, and the answer follows it: a line (a last line
without LF is the spec's own choice D10), a failure, or no answer yet. What was consumed is removed in every case. -/
def Obligations.LineReadFollowsTheStream : Prop :=
  ∀ s : State,
    ((∃ line rest, lineAhead s line rest ∧ inReadLine s = .data line (answered rest line.length s)) ∨
      (∃ n rest, lineFails s n rest ∧ inReadLine s = .fails (answered rest n s)) ∨
      (linePending s ∧ inReadLine s = .pending)) ∧
    (∀ line rest n rest', ¬ (lineAhead s line rest ∧ lineFails s n rest')) ∧
    (∀ line rest, ¬ (lineAhead s line rest ∧ linePending s)) ∧ ∀ n rest, ¬ (lineFails s n rest ∧ linePending s)

/-- The conditions (a) to (d) of R122 on `PARSE_LINE`, a parameter (the spec's own choice D9): digits between ASCII white
space are read as a decimal number up to 255, with leading zeros; white space alone, a larger number, and any text with a
byte that is neither digit nor plus sign give no value. What is trimmed is white space at the two ends, all ASCII white
space there, and never a byte that R122 treats as text (which bytes those are is the model's reading, log 5). -/
def Obligations.ParseLineMeetsItsConditions : Prop :=
  (∀ before t after : List Byte, before.all isAsciiSpace = true → after.all isAsciiSpace = true → t ≠ [] →
    t.all isDigit = true →
    parseLine (before ++ t ++ after) =
      if t.foldl (fun n d => 10 * n + (d.toNat - 48)) 0 ≤ 255
      then some (BitVec.ofNat 8 (t.foldl (fun n d => 10 * n + (d.toNat - 48)) 0)) else none) ∧
  (∀ line : List Byte, trim line = [] → parseLine line = none) ∧
  (∀ line : List Byte, line.all isAsciiSpace = true → trim line = []) ∧
  (∀ (line : List Byte) (b : Byte), b ∈ trim line → isDigit b = false → b ≠ 0x2B → parseLine line = none) ∧
  (∀ line : List Byte, ∃ before after : List Byte, line = before ++ trim line ++ after ∧ isBlank before = true ∧
    isBlank after = true) ∧
  (∀ (line : List Byte) (b : Byte), (trim line).head? = some b ∨ (trim line).getLast? = some b →
    isAsciiSpace b = false) ∧
  ∀ (line : List Byte) (b : Byte), b ∈ line → isText b = true → b ∈ trim line

/-- `Dec(v)` is the shortest decimal text of a byte (the spec's own choice D11): digits only, no leading zero, one to
three of them, of value `v`; and a line of it parses back to `v`. -/
def Obligations.DecimalTextIsShortestAndParsesBack : Prop :=
  ∀ v : Byte, (dec v).all isDigit = true ∧ (dec v).foldl (fun n d => 10 * n + (d.toNat - 48)) 0 = v.toNat ∧
    1 ≤ (dec v).length ∧ (dec v).length ≤ 3 ∧ (v ≠ 0 → (dec v).head? ≠ some 0x30) ∧ (v = 0 → dec v = [0x30]) ∧
    parseLine (dec v ++ [lf]) = some v

/-- `i` with both output transactions answered `ok` and a line that parses: prompt, flush, the line consumed, its value
pushed, `pc` advanced. That the prompt is one write is the spec's own choice D25. A core that waits at the `i` goes on at
the read, with no second prompt (the model's form of the wait, log 3). -/
def Obligations.IndecPushesTheParsedLine : Prop :=
  decode 0x69 = .indec ∧
  ∀ (s : State) (line : List Byte) (rest : List InItem) (v : Byte), lineAhead s line rest → parseLine line = some v →
    (s.wait = false → repliesOk 2 s →
      exec .indec s = .next (advance (push v { s with
        input := rest, inPos := s.inPos + line.length,
        out := s.out ++ promptEvents, outReplies := s.outReplies.drop 2 }))) ∧
    (s.wait = true →
      exec .indec s = .next (advance (push v { s with
        input := rest, inPos := s.inPos + line.length, wait := false })))

/-- The failures of `i`, in their order: a failing prompt issues no flush and no read; a failing flush issues no read; a
failing read and a line that does not parse have the prompt and the flush issued and what was read consumed. Each leaves
`pc`, `sp` and memory as before (the spec's own choice D7) with `rs` FAULT_IO. -/
def Obligations.IndecFailsInOrder : Prop :=
  ∀ s : State, s.wait = false →
    (∀ n more, s.outReplies = .fails n :: more →
      exec .indec s = .next { s with
        rs := .faultIO, out := s.out ++ [.write [0x3E, 0x20] (.fails n)], outReplies := more }) ∧
    (∀ n more, s.outReplies = .ok :: .fails n :: more →
      exec .indec s = .next { s with
        rs := .faultIO, out := s.out ++ [.write [0x3E, 0x20] .ok, .flush (.fails n)], outReplies := more }) ∧
    (∀ n rest, repliesOk 2 s → lineFails s n rest →
      exec .indec s = .next { s with
        rs := .faultIO, input := rest, inPos := s.inPos + n,
        out := s.out ++ [.write [0x3E, 0x20] .ok, .flush .ok], outReplies := s.outReplies.drop 2 }) ∧
    (∀ line rest, repliesOk 2 s → lineAhead s line rest → parseLine line = none →
      exec .indec s = .next { s with
        rs := .faultIO, input := rest, inPos := s.inPos + line.length,
        out := s.out ++ [.write [0x3E, 0x20] .ok, .flush .ok], outReplies := s.outReplies.drop 2 })

/-- R302: a line that does not parse makes `i` fail with the same cause as a read that fails: after either, `rs` is
FAULT_IO. -/
def Obligations.ParseFailureIsAnIoFailure : Prop :=
  ∀ (s : State) (line : List Byte) (rest : List InItem), repliesOk 2 s → lineAhead s line rest →
    parseLine line = none → ∃ t, exec .indec s = .next t ∧ t.rs = .faultIO ∧
    ∀ (u : State) (n : Nat) (rest' : List InItem), repliesOk 2 u → lineFails u n rest' →
      ∃ u', exec .indec u = .next u' ∧ u'.rs = t.rs

/-- `:` pushes the next input byte, unchanged, whatever it is, with no output; at the end of the stream or at a read
error it takes cause IO with nothing pushed (that `pc`, `sp` and memory stay is the spec's own choice D7; that a read
error is an item of the stream is the model's form, log 6); while no byte has arrived it completes nothing (log 3). -/
def Obligations.InbytePushesTheNextByte : Prop :=
  decode 0x3A = .inbyte ∧
  ∀ s : State,
    (∀ b rest, s.input = .byte b :: rest →
      exec .inbyte s = .next (advance (push b { s with input := rest, inPos := s.inPos + 1, wait := false }))) ∧
    (∀ rest, s.input = .readError :: rest →
      exec .inbyte s = .next { s with rs := .faultIO, input := rest, wait := false }) ∧
    (s.input = [] → s.inEnded = true → exec .inbyte s = .next { s with rs := .faultIO, wait := false }) ∧
    (s.input = [] → s.inEnded = false → ∀ t, exec .inbyte s = .next t →
      t.wait = true ∧ t.pc = s.pc ∧ t.sp = s.sp ∧ t.mem = s.mem ∧ t.rs = s.rs ∧ t.out = s.out ∧ t.input = s.input)

/-- A read without an answer: a core that does not wait yet enters the wait condition with `pc`, `sp` and memory as they
were (and, at `i`, the prompt issued): that this entry is a step of its own is the model's choice (log 3). A core that
waits has no successor (R30). -/
def Obligations.UnansweredReadWaits : Prop :=
  ∀ s : State,
    (s.input = [] → s.inEnded = false →
      (s.wait = false → exec .inbyte s = .next { s with wait := true }) ∧
      (s.wait = true → exec .inbyte s = .fault .inputPending)) ∧
    (linePending s →
      (s.wait = false → repliesOk 2 s → exec .indec s = .next { s with
        wait := true, out := s.out ++ promptEvents, outReplies := s.outReplies.drop 2 }) ∧
      (s.wait = true → exec .indec s = .fault .inputPending))

/-- The delay of an input answer changes nothing but the time: a Step that entered the wait, continued after the host
supplied the input, ends in the very state in which it would have ended had the input been there before it began. -/
def Obligations.DelayedAnswerMakesNoDifference : Prop :=
  ∀ (s waiting done : State) (items : List InItem) (ends : Bool), s.wait = false → step s = .next waiting →
    waiting.wait = true → step (supply items ends s) = .next done → done.wait = false →
    step (supply items ends waiting) = .next done

/-- `o`: pops a byte and writes its shortest decimal digits and a line feed (the format is the spec's own choice D11), in
one transaction; no cell changes. -/
def Obligations.OutdecWritesADecimalLine : Prop :=
  decode 0x6F = .outdec ∧
  ∀ s : State, repliesOk 1 s →
    exec .outdec s = .next { s with
      sp := s.sp + 1, pc := s.pc + 1, out := s.out ++ [.write (dec (topCell s) ++ [0x0A]) .ok],
      outReplies := s.outReplies.tail }

/-- `'` pops a byte and writes it raw, with no newline; a failing write takes cause IO. The port's replies stand
in `outReplies`, the model's own field (log 4); a failing one carries what was delivered (log 7, the spec's own choice
D24). -/
def Obligations.OutbyteWritesTheRawByte : Prop :=
  decode 0x27 = .outbyte ∧
  ∀ s : State,
    (repliesOk 1 s →
      exec .outbyte s = .next { (pop s).2 with
        pc := s.pc + 1, out := s.out ++ [.write [(pop s).1] .ok], outReplies := s.outReplies.tail }) ∧
    (∀ n more, s.outReplies = .fails n :: more → ∃ t, exec .outbyte s = .next t ∧
      t.rs = .faultIO ∧ t.out = s.out ++ [.write [(pop s).1] (.fails n)] ∧ t.outReplies = more)

/-- The debug dump writes the rendering of its own address, `sp` and the 256 cells as they are, in one transaction, and
advances; it changes no other state. The rendering is a parameter (the spec's own choice D12). -/
def Obligations.DumpWritesTheRendering : Prop :=
  decode 0x22 = .dump ∧
  ∀ s : State,
    (repliesOk 1 s →
      exec .dump s = .next { s with
        pc := s.pc + 1, out := s.out ++ [.write (Config.renderDump s.pc s.sp s.mem.cells) .ok],
        outReplies := s.outReplies.tail }) ∧
    ∀ a : Fin 256, s.mem.cells[a] = readMem s (BitVec.ofFin a)

/-- A failing write of `o`, `'` or the dump: `rs` becomes FAULT_IO, `pc`, `sp` and memory are as before (the spec's own
choice D7), and some prefix of what was written has been delivered (D24): every prefix can be. -/
def Obligations.FailedWriteIsAPreciseIoFault : Prop :=
  ∀ (s : State) (n : Nat) (more : List OutReply) (i : Instr) (bytes : List Byte), s.outReplies = .fails n :: more →
    ((i, bytes) = (.outdec, dec (topCell s) ++ [0x0A]) ∨ (i, bytes) = (.outbyte, [topCell s]) ∨
      (i, bytes) = (.dump, Config.renderDump s.pc s.sp s.mem.cells)) →
    ∃ t, exec i s = .next t ∧
      t = { s with
        rs := .faultIO, wait := false, out := s.out ++ [.write bytes (.fails n)], outReplies := more } ∧
      outputBytes t = outputBytes s ++ bytes.take n

/-! ### The whole machine -/

/-- The table of R300, and the halts: from RUNNING, a Step ends in FAULT_ARITH exactly at a division or remainder by a
zero divisor, in HALTED exactly at `x` or an unrecognized byte, and in FAULT_IO only at one of the five instructions that
use a port. Causes and codes are the spec's own choices D3 and D8. -/
def Obligations.RunStateChangesOnlyAsTabled : Prop :=
  ∀ s t : State, s.rs = .running → step s = .next t →
    (t.rs = .faultArith ↔ divides (current s) ∧ topCell s = 0) ∧ (t.rs = .halted ↔ halts (current s)) ∧
    (t.rs = .faultIO → usesPorts (current s))

/-- A faulting instruction leaves `pc`, `sp` and memory exactly as they were (the spec's own choice D7). -/
def Obligations.FaultsArePrecise : Prop :=
  ∀ s t : State, step s = .next t → t.rs = .faultIO ∨ t.rs = .faultArith →
    t.pc = s.pc ∧ t.sp = s.sp ∧ t.mem = s.mem

/-- Raising a fault sets `rs` to the cause's value and writes no message; the Step that took it returns `Fault(cause)` to
the host (R303), and the core has stopped for good: that a further Step is a no-op is the spec's own choice D21 of R70
(log 8). A Step that completes otherwise returns Continue, or Halt where it halted (R68). -/
def Obligations.FaultEntryStopsForGood : Prop :=
  (∀ (cause : FaultCause) (before now : State), (raiseFault cause before now).out = now.out ∧
    (raiseFault .io before now).rs = .faultIO ∧ (raiseFault .arith before now).rs = .faultArith) ∧
  (∀ (s t : State) (cause : FaultCause), s.rs = .running → step s = .next t → t.rs = cause.runState →
    stepResult s = some (.fault cause) ∧ ∀ n : Nat, core.run n t = .next t) ∧
  ∀ s t : State, s.rs = .running → step s = .next t → t.wait = false →
    (t.rs = .running → stepResult s = some .continue) ∧ (t.rs = .halted → stepResult s = some .halt)

/-- The core adds to the output only through `i`, `o`, `'` and the dump, and consumes input only through `i` and `:`; it
waits only there (R31, R30). -/
def Obligations.OnlyPortInstructionsTouchThePorts : Prop :=
  ∀ s t : State, step s = .next t →
    (t.out ≠ s.out ∨ t.outReplies ≠ s.outReplies → writesOutput (current s)) ∧
    (t.input ≠ s.input ∨ t.inPos ≠ s.inPos → readsInput (current s)) ∧
    (s.wait = false → t.wait = true → readsInput (current s)) ∧ t.inEnded = s.inEnded

/-- Output is never taken back: a step appends at most two transactions to the sequence. -/
def Obligations.OutputOnlyGrows : Prop :=
  ∀ s t : State, step s = .next t → ∃ events, t.out = s.out ++ events ∧ events.length ≤ 2

/-- Input is consumed from the front and never put back, and the position counts the bytes consumed. -/
def Obligations.InputIsConsumedInOrder : Prop :=
  ∀ s t : State, step s = .next t → ∃ used, s.input = used ++ t.input ∧ t.inPos = s.inPos + countBytes used

/-- An instruction that uses no port computes the same whatever the ports hold: two states that agree in memory, `pc`,
`sp` and `rs` step to states that agree in them. -/
def Obligations.ComputationIgnoresThePorts : Prop :=
  ∀ s u t : State, sameCore s u → ¬ usesPorts (current s) → step s = .next t →
    ∃ w, step u = .next w ∧ sameCore t w

/-- The invariant of `Safety.lean` is kept by every step: the canonical memory; a core that waits is RUNNING at a reading
instruction with its prompt issued; a terminal state stands at the instruction that caused it; only the last output
transaction can have failed, and only in FAULT_IO. That the halting and the faulting `pc` are kept are the spec's own
choices D6 and D7. -/
def Obligations.EveryStepKeepsTheInvariant : Prop :=
  ∀ s t : State, Inv s → step s = .next t → Inv t

/-- The invariant holds right after reset. -/
def Obligations.ResetMeetsTheInvariant : Prop :=
  Inv State.reset

/-- The invariant holds after every launch, and the host's supply of input keeps it. -/
def Obligations.LaunchAndSupplyMeetTheInvariant : Prop :=
  (∀ (h : HostStreams) (img : List Byte) (s : State), launch h img = .next s → Inv s) ∧
  ∀ (s : State) (items : List InItem) (ends : Bool), Inv s → Inv (supply items ends s)
end

