-- ==== Sys2Proof/Laws/Memory.lean ====
section
/-! SUPPORT. The laws of memory: a read after a write, the canonical form, and that the form decides equality. -/

namespace Sys2Proof.Machine

@[simp] theorem Memory.read_nil (a : Nat) : Memory.read [] a = Memory.blank := rfl

theorem Memory.read_cons (k : Nat) (v : Byte) (m : Memory) (a : Nat) :
    Memory.read ((k, v) :: m) a = if k = a then v else Memory.read m a := rfl

/-! ### What a read finds after a write, in any list -/

theorem Memory.read_erase (m : Memory) (a c : Nat) :
    Memory.read (m.erase a) c = if c = a then Memory.blank else m.read c := by
  induction m with
  | nil => simp [Memory.erase]
  | cons hd m ih =>
    obtain ⟨k, v⟩ := hd
    have ih' : Memory.read (List.filter (fun c => c.1 != a) m) c = if c = a then Memory.blank else Memory.read m c := ih
    by_cases hk : k = a
    · subst hk
      by_cases hc : c = k <;> simp_all [Memory.erase, Memory.read_cons, eq_comm]
    · by_cases hc : k = c <;> simp_all [Memory.erase, Memory.read_cons]

theorem Memory.read_insert (m : Memory) (a c : Nat) (v : Byte) (absent : ∀ p ∈ m, p.1 ≠ a) :
    Memory.read (m.insert a v) c = if c = a then v else m.read c := by
  induction m with
  | nil => simp [Memory.insert, Memory.read_cons, eq_comm]
  | cons hd m ih =>
    obtain ⟨k, w⟩ := hd
    have hk : k ≠ a := absent _ List.mem_cons_self
    have ih' := ih fun p hp => absent p (List.mem_cons_of_mem _ hp)
    by_cases hlt : a < k
    · simp [Memory.insert, hlt, Memory.read_cons, eq_comm]
    · by_cases hc : k = c
      · subst hc; simp [Memory.insert, hlt, Memory.read_cons, hk]
      · simp [Memory.insert, hlt, Memory.read_cons, hc, ih']

theorem Memory.erase_absent (m : Memory) (a : Nat) : ∀ p ∈ m.erase a, p.1 ≠ a := by
  simp [Memory.erase, List.mem_filter]

/-- A read after a write: the written cell gives the value, every other cell what it gave. It holds of every list,
canonical or not. -/
theorem Memory.read_write (m : Memory) (a c : Nat) (v : Byte) :
    Memory.read (m.write a v) c = if c = a then v else m.read c := by
  unfold Memory.write
  split
  · next h => rw [Memory.read_erase, h]
  · rw [Memory.read_insert _ _ _ _ (Memory.erase_absent m a), Memory.read_erase]
    split <;> simp_all

/-! ### The canonical form -/

theorem Memory.wfFrom_cons (lo k : Nat) (v : Byte) (m : Memory) :
    Memory.wfFrom lo ((k, v) :: m) = true ↔ lo ≤ k ∧ k < 256 ∧ v ≠ Memory.blank ∧ Memory.wfFrom (k + 1) m = true := by
  simp [Memory.wfFrom, and_assoc]

theorem Memory.wfFrom_mono {lo hi : Nat} {m : Memory} (h : Memory.wfFrom hi m = true) (hle : lo ≤ hi) :
    Memory.wfFrom lo m = true := by
  cases m with
  | nil => rfl
  | cons hd m =>
    obtain ⟨k, v⟩ := hd
    rw [Memory.wfFrom_cons] at *
    exact ⟨by omega, h.2⟩

theorem Memory.wfFrom_erase {lo : Nat} {m : Memory} (a : Nat) (h : Memory.wfFrom lo m = true) :
    Memory.wfFrom lo (m.erase a) = true := by
  induction m generalizing lo with
  | nil => rfl
  | cons hd m ih =>
    obtain ⟨k, v⟩ := hd
    rw [Memory.wfFrom_cons] at h
    have ih' := ih h.2.2.2
    by_cases hk : k = a
    · have : Memory.erase ((k, v) :: m) a = Memory.erase m a := by simp [Memory.erase, hk]
      rw [this]; exact Memory.wfFrom_mono ih' (by omega)
    · have : Memory.erase ((k, v) :: m) a = (k, v) :: Memory.erase m a := by simp [Memory.erase, hk]
      rw [this, Memory.wfFrom_cons]; exact ⟨h.1, h.2.1, h.2.2.1, ih'⟩

theorem Memory.wfFrom_insert {lo a : Nat} {m : Memory} {v : Byte} (h : Memory.wfFrom lo m = true)
    (absent : ∀ p ∈ m, p.1 ≠ a) (hlo : lo ≤ a) (ha : a < 256) (hv : v ≠ Memory.blank) :
    Memory.wfFrom lo (m.insert a v) = true := by
  induction m generalizing lo with
  | nil => simp [Memory.insert, Memory.wfFrom, hlo, ha, hv]
  | cons hd m ih =>
    obtain ⟨k, w⟩ := hd
    rw [Memory.wfFrom_cons] at h
    have hk : k ≠ a := absent _ List.mem_cons_self
    unfold Memory.insert
    split
    · next hlt =>
      simp only [Memory.wfFrom_cons]
      exact ⟨hlo, ha, hv, by omega, h.2.1, h.2.2.1, h.2.2.2⟩
    · rw [Memory.wfFrom_cons]
      exact ⟨h.1, h.2.1, h.2.2.1, ih h.2.2.2 (fun p hp => absent p (List.mem_cons_of_mem _ hp)) (by omega)⟩

/-- Every write to one of the 256 cells keeps the canonical form. -/
theorem Memory.wf_write {m : Memory} (h : m.wf = true) {a : Nat} (ha : a < 256) (v : Byte) :
    (m.write a v).wf = true := by
  unfold Memory.write Memory.wf
  split
  · exact Memory.wfFrom_erase a h
  · next hv => exact Memory.wfFrom_insert (Memory.wfFrom_erase a h) (Memory.erase_absent m a) (Nat.zero_le _) ha hv

theorem Memory.wf_nil : Memory.wf [] = true := rfl

theorem Memory.wf_load {m : Memory} (h : m.wf = true) (img : List Byte) {a : Nat} (fits : a + img.length ≤ 256) :
    (m.load a img).wf = true := by
  induction img generalizing m a with
  | nil => exact h
  | cons b rest ih =>
    simp only [List.length_cons] at fits
    exact ih (Memory.wf_write h (by omega) b) (by omega)

/-- An address below the bound of a canonical list reads blank. -/
theorem Memory.read_below {lo a : Nat} {m : Memory} (h : Memory.wfFrom lo m = true) (ha : a < lo) :
    m.read a = Memory.blank := by
  induction m generalizing lo with
  | nil => rfl
  | cons hd m ih =>
    obtain ⟨k, v⟩ := hd
    rw [Memory.wfFrom_cons] at h
    rw [Memory.read_cons, if_neg (by omega)]
    exact ih h.2.2.2 (by omega)

/-! ### Loading an image -/

theorem Memory.read_load (m : Memory) (a c : Nat) (img : List Byte) :
    Memory.read (m.load a img) c = if a ≤ c ∧ c < a + img.length then img.getD (c - a) 0 else m.read c := by
  induction img generalizing m a with
  | nil => simp [Memory.load]
  | cons b rest ih =>
    simp only [Memory.load, ih, Memory.read_write, List.length_cons]
    by_cases h : c = a
    · subst h; simp
    · by_cases h2 : a + 1 ≤ c ∧ c < a + 1 + rest.length
      · have e : c - a = (c - (a + 1)) + 1 := by omega
        rw [if_pos h2, if_pos (by omega), e]; simp
      · rw [if_neg h2, if_neg h, if_neg (by omega)]

end Sys2Proof.Machine
end

