-- ==== Sys2Proof/Laws/State.lean ====
section
/-! SUPPORT. One lemma per field of the state for each operation that updates it, true by definition. -/

namespace Sys2Proof.Machine

@[simp] theorem writeMem_mem (s : State) (a : Addr) (v : Byte) : (writeMem s a v).mem = s.mem.write a.toNat v := rfl
@[simp] theorem writeMem_pc (s : State) (a : Addr) (v : Byte) : (writeMem s a v).pc = s.pc := rfl
@[simp] theorem writeMem_sp (s : State) (a : Addr) (v : Byte) : (writeMem s a v).sp = s.sp := rfl
@[simp] theorem writeMem_rs (s : State) (a : Addr) (v : Byte) : (writeMem s a v).rs = s.rs := rfl
@[simp] theorem writeMem_wait (s : State) (a : Addr) (v : Byte) : (writeMem s a v).wait = s.wait := rfl
@[simp] theorem writeMem_input (s : State) (a : Addr) (v : Byte) : (writeMem s a v).input = s.input := rfl
@[simp] theorem writeMem_inEnded (s : State) (a : Addr) (v : Byte) : (writeMem s a v).inEnded = s.inEnded := rfl
@[simp] theorem writeMem_inPos (s : State) (a : Addr) (v : Byte) : (writeMem s a v).inPos = s.inPos := rfl
@[simp] theorem writeMem_out (s : State) (a : Addr) (v : Byte) : (writeMem s a v).out = s.out := rfl
@[simp] theorem writeMem_outReplies (s : State) (a : Addr) (v : Byte) : (writeMem s a v).outReplies = s.outReplies := rfl

@[simp] theorem push_mem (v : Byte) (s : State) : (push v s).mem = s.mem.write s.sp.toNat v := rfl
@[simp] theorem push_pc (v : Byte) (s : State) : (push v s).pc = s.pc := rfl
@[simp] theorem push_sp (v : Byte) (s : State) : (push v s).sp = s.sp - 1 := rfl
@[simp] theorem push_rs (v : Byte) (s : State) : (push v s).rs = s.rs := rfl
@[simp] theorem push_wait (v : Byte) (s : State) : (push v s).wait = s.wait := rfl
@[simp] theorem push_input (v : Byte) (s : State) : (push v s).input = s.input := rfl
@[simp] theorem push_inEnded (v : Byte) (s : State) : (push v s).inEnded = s.inEnded := rfl
@[simp] theorem push_inPos (v : Byte) (s : State) : (push v s).inPos = s.inPos := rfl
@[simp] theorem push_out (v : Byte) (s : State) : (push v s).out = s.out := rfl
@[simp] theorem push_outReplies (v : Byte) (s : State) : (push v s).outReplies = s.outReplies := rfl

@[simp] theorem pop_mem (s : State) : ((pop s).2).mem = s.mem := rfl
@[simp] theorem pop_pc (s : State) : ((pop s).2).pc = s.pc := rfl
@[simp] theorem pop_sp (s : State) : ((pop s).2).sp = s.sp + 1 := rfl
@[simp] theorem pop_rs (s : State) : ((pop s).2).rs = s.rs := rfl
@[simp] theorem pop_wait (s : State) : ((pop s).2).wait = s.wait := rfl
@[simp] theorem pop_input (s : State) : ((pop s).2).input = s.input := rfl
@[simp] theorem pop_inEnded (s : State) : ((pop s).2).inEnded = s.inEnded := rfl
@[simp] theorem pop_inPos (s : State) : ((pop s).2).inPos = s.inPos := rfl
@[simp] theorem pop_out (s : State) : ((pop s).2).out = s.out := rfl
@[simp] theorem pop_outReplies (s : State) : ((pop s).2).outReplies = s.outReplies := rfl

@[simp] theorem advance_mem (s : State) : (advance s).mem = s.mem := rfl
@[simp] theorem advance_pc (s : State) : (advance s).pc = s.pc + 1 := rfl
@[simp] theorem advance_sp (s : State) : (advance s).sp = s.sp := rfl
@[simp] theorem advance_rs (s : State) : (advance s).rs = s.rs := rfl
@[simp] theorem advance_wait (s : State) : (advance s).wait = s.wait := rfl
@[simp] theorem advance_input (s : State) : (advance s).input = s.input := rfl
@[simp] theorem advance_inEnded (s : State) : (advance s).inEnded = s.inEnded := rfl
@[simp] theorem advance_inPos (s : State) : (advance s).inPos = s.inPos := rfl
@[simp] theorem advance_out (s : State) : (advance s).out = s.out := rfl
@[simp] theorem advance_outReplies (s : State) : (advance s).outReplies = s.outReplies := rfl

@[simp] theorem jump_mem (a : Addr) (s : State) : (jump a s).mem = s.mem := rfl
@[simp] theorem jump_pc (a : Addr) (s : State) : (jump a s).pc = a := rfl
@[simp] theorem jump_sp (a : Addr) (s : State) : (jump a s).sp = s.sp := rfl
@[simp] theorem jump_rs (a : Addr) (s : State) : (jump a s).rs = s.rs := rfl
@[simp] theorem jump_wait (a : Addr) (s : State) : (jump a s).wait = s.wait := rfl
@[simp] theorem jump_input (a : Addr) (s : State) : (jump a s).input = s.input := rfl
@[simp] theorem jump_inEnded (a : Addr) (s : State) : (jump a s).inEnded = s.inEnded := rfl
@[simp] theorem jump_inPos (a : Addr) (s : State) : (jump a s).inPos = s.inPos := rfl
@[simp] theorem jump_out (a : Addr) (s : State) : (jump a s).out = s.out := rfl
@[simp] theorem jump_outReplies (a : Addr) (s : State) : (jump a s).outReplies = s.outReplies := rfl

@[simp] theorem halt_mem (s : State) : (halt s).mem = s.mem := rfl
@[simp] theorem halt_pc (s : State) : (halt s).pc = s.pc := rfl
@[simp] theorem halt_sp (s : State) : (halt s).sp = s.sp := rfl
@[simp] theorem halt_rs (s : State) : (halt s).rs = .halted := rfl
@[simp] theorem halt_wait (s : State) : (halt s).wait = s.wait := rfl
@[simp] theorem halt_input (s : State) : (halt s).input = s.input := rfl
@[simp] theorem halt_inEnded (s : State) : (halt s).inEnded = s.inEnded := rfl
@[simp] theorem halt_inPos (s : State) : (halt s).inPos = s.inPos := rfl
@[simp] theorem halt_out (s : State) : (halt s).out = s.out := rfl
@[simp] theorem halt_outReplies (s : State) : (halt s).outReplies = s.outReplies := rfl

@[simp] theorem raiseFault_mem (c : FaultCause) (b s : State) : (raiseFault c b s).mem = b.mem := rfl
@[simp] theorem raiseFault_pc (c : FaultCause) (b s : State) : (raiseFault c b s).pc = b.pc := rfl
@[simp] theorem raiseFault_sp (c : FaultCause) (b s : State) : (raiseFault c b s).sp = b.sp := rfl
@[simp] theorem raiseFault_rs (c : FaultCause) (b s : State) : (raiseFault c b s).rs = c.runState := rfl
@[simp] theorem raiseFault_wait (c : FaultCause) (b s : State) : (raiseFault c b s).wait = false := rfl
@[simp] theorem raiseFault_input (c : FaultCause) (b s : State) : (raiseFault c b s).input = s.input := rfl
@[simp] theorem raiseFault_inEnded (c : FaultCause) (b s : State) : (raiseFault c b s).inEnded = s.inEnded := rfl
@[simp] theorem raiseFault_inPos (c : FaultCause) (b s : State) : (raiseFault c b s).inPos = s.inPos := rfl
@[simp] theorem raiseFault_out (c : FaultCause) (b s : State) : (raiseFault c b s).out = s.out := rfl
@[simp] theorem raiseFault_outReplies (c : FaultCause) (b s : State) : (raiseFault c b s).outReplies = s.outReplies := rfl

@[simp] theorem outWrite_mem (bs : List Byte) (s : State) : ((outWrite bs s).2).mem = s.mem := rfl
@[simp] theorem outWrite_pc (bs : List Byte) (s : State) : ((outWrite bs s).2).pc = s.pc := rfl
@[simp] theorem outWrite_sp (bs : List Byte) (s : State) : ((outWrite bs s).2).sp = s.sp := rfl
@[simp] theorem outWrite_rs (bs : List Byte) (s : State) : ((outWrite bs s).2).rs = s.rs := rfl
@[simp] theorem outWrite_wait (bs : List Byte) (s : State) : ((outWrite bs s).2).wait = s.wait := rfl
@[simp] theorem outWrite_input (bs : List Byte) (s : State) : ((outWrite bs s).2).input = s.input := rfl
@[simp] theorem outWrite_inEnded (bs : List Byte) (s : State) : ((outWrite bs s).2).inEnded = s.inEnded := rfl
@[simp] theorem outWrite_inPos (bs : List Byte) (s : State) : ((outWrite bs s).2).inPos = s.inPos := rfl
@[simp] theorem outWrite_out (bs : List Byte) (s : State) : ((outWrite bs s).2).out = s.out ++ [.write bs (nextReply s)] := rfl
@[simp] theorem outWrite_outReplies (bs : List Byte) (s : State) : ((outWrite bs s).2).outReplies = s.outReplies.tail := rfl

@[simp] theorem outFlush_mem (s : State) : ((outFlush s).2).mem = s.mem := rfl
@[simp] theorem outFlush_pc (s : State) : ((outFlush s).2).pc = s.pc := rfl
@[simp] theorem outFlush_sp (s : State) : ((outFlush s).2).sp = s.sp := rfl
@[simp] theorem outFlush_rs (s : State) : ((outFlush s).2).rs = s.rs := rfl
@[simp] theorem outFlush_wait (s : State) : ((outFlush s).2).wait = s.wait := rfl
@[simp] theorem outFlush_input (s : State) : ((outFlush s).2).input = s.input := rfl
@[simp] theorem outFlush_inEnded (s : State) : ((outFlush s).2).inEnded = s.inEnded := rfl
@[simp] theorem outFlush_inPos (s : State) : ((outFlush s).2).inPos = s.inPos := rfl
@[simp] theorem outFlush_out (s : State) : ((outFlush s).2).out = s.out ++ [.flush (nextReply s)] := rfl
@[simp] theorem outFlush_outReplies (s : State) : ((outFlush s).2).outReplies = s.outReplies.tail := rfl

@[simp] theorem answered_mem (r : List InItem) (n : Nat) (s : State) : (answered r n s).mem = s.mem := rfl
@[simp] theorem answered_pc (r : List InItem) (n : Nat) (s : State) : (answered r n s).pc = s.pc := rfl
@[simp] theorem answered_sp (r : List InItem) (n : Nat) (s : State) : (answered r n s).sp = s.sp := rfl
@[simp] theorem answered_rs (r : List InItem) (n : Nat) (s : State) : (answered r n s).rs = s.rs := rfl
@[simp] theorem answered_wait (r : List InItem) (n : Nat) (s : State) : (answered r n s).wait = false := rfl
@[simp] theorem answered_input (r : List InItem) (n : Nat) (s : State) : (answered r n s).input = r := rfl
@[simp] theorem answered_inEnded (r : List InItem) (n : Nat) (s : State) : (answered r n s).inEnded = s.inEnded := rfl
@[simp] theorem answered_inPos (r : List InItem) (n : Nat) (s : State) : (answered r n s).inPos = s.inPos + n := rfl
@[simp] theorem answered_out (r : List InItem) (n : Nat) (s : State) : (answered r n s).out = s.out := rfl
@[simp] theorem answered_outReplies (r : List InItem) (n : Nat) (s : State) : (answered r n s).outReplies = s.outReplies := rfl

@[simp] theorem placeOpcode_mem (op : Byte) (s : State) : (placeOpcode op s).mem = s.mem.write s.pc.toNat op := rfl
@[simp] theorem placeOpcode_pc (op : Byte) (s : State) : (placeOpcode op s).pc = s.pc := rfl
@[simp] theorem placeOpcode_sp (op : Byte) (s : State) : (placeOpcode op s).sp = s.sp := rfl
@[simp] theorem placeOpcode_rs (op : Byte) (s : State) : (placeOpcode op s).rs = .running := rfl
@[simp] theorem placeOpcode_wait (op : Byte) (s : State) : (placeOpcode op s).wait = s.wait := rfl
@[simp] theorem placeOpcode_input (op : Byte) (s : State) : (placeOpcode op s).input = s.input := rfl
@[simp] theorem placeOpcode_inEnded (op : Byte) (s : State) : (placeOpcode op s).inEnded = s.inEnded := rfl
@[simp] theorem placeOpcode_inPos (op : Byte) (s : State) : (placeOpcode op s).inPos = s.inPos := rfl
@[simp] theorem placeOpcode_out (op : Byte) (s : State) : (placeOpcode op s).out = s.out := rfl
@[simp] theorem placeOpcode_outReplies (op : Byte) (s : State) : (placeOpcode op s).outReplies = s.outReplies := rfl

@[simp] theorem pop_value (s : State) : (pop s).1 = readMem s (s.sp + 1) := rfl
@[simp] theorem outWrite_ok (bs : List Byte) (s : State) : (outWrite bs s).1 = (nextReply s == .ok) := rfl
@[simp] theorem outFlush_ok (s : State) : (outFlush s).1 = (nextReply s == .ok) := rfl

@[simp] theorem code_running : RunState.code .running = 0 := rfl
@[simp] theorem runState_io : FaultCause.runState .io = .faultIO := rfl
@[simp] theorem runState_arith : FaultCause.runState .arith = .faultArith := rfl

end Sys2Proof.Machine
end

