-- ==== Sys2Proof/Laws/Ops.lean ====
section
/-! SUPPORT. What each shared operation can do, once: reads after writes and pushes, the operand forms, the ports, and
the meanings over them. -/

namespace Sys2Proof.Machine

/-! ### Reading a byte -/

theorem readMem_congr {s t : State} (h : t.mem = s.mem) (a : Addr) : readMem t a = readMem s a := by
  simp [readMem, h]

theorem toNat_eq_iff (a c : Addr) : a.toNat = c.toNat ↔ a = c :=
  ⟨BitVec.eq_of_toNat_eq, congrArg _⟩

@[simp] theorem readMem_writeMem (s : State) (a c : Addr) (v : Byte) :
    readMem (writeMem s a v) c = if c = a then v else readMem s c := by
  simp [readMem, Memory.read_write, toNat_eq_iff]

@[simp] theorem readMem_push (s : State) (v : Byte) (c : Addr) :
    readMem (push v s) c = if c = s.sp then v else readMem s c := by
  simp [readMem, Memory.read_write, toNat_eq_iff]

@[simp] theorem readMem_pop (s : State) (c : Addr) : readMem (pop s).2 c = readMem s c := rfl
@[simp] theorem readMem_advance (s : State) (c : Addr) : readMem (advance s) c = readMem s c := rfl
@[simp] theorem readMem_jump (s : State) (a c : Addr) : readMem (jump a s) c = readMem s c := rfl
@[simp] theorem readMem_halt (s : State) (c : Addr) : readMem (halt s) c = readMem s c := rfl
@[simp] theorem readMem_answered (r : List InItem) (n : Nat) (s : State) (c : Addr) :
    readMem (answered r n s) c = readMem s c := rfl
@[simp] theorem readMem_raiseFault (k : FaultCause) (b s : State) (c : Addr) :
    readMem (raiseFault k b s) c = readMem b c := rfl
@[simp] theorem readMem_outWrite (bs : List Byte) (s : State) (c : Addr) :
    readMem (outWrite bs s).2 c = readMem s c := rfl
@[simp] theorem readMem_outFlush (s : State) (c : Addr) : readMem (outFlush s).2 c = readMem s c := rfl

@[simp] theorem readMem_withSp (s : State) (x c : Addr) : readMem { s with sp := x } c = readMem s c := rfl

theorem sp_up_twice (x : Addr) : x + 1 + 1 = x + 2 := by
  rw [BitVec.add_assoc]; rfl

theorem sp_up_down (x : Addr) : x + 1 - 1 = x := by
  simp

theorem sp_up_twice_down (x : Addr) : x + 2 - 1 = x + 1 := by
  rw [← sp_up_twice, sp_up_down]

theorem sp_ne_up (x : Addr) : x ≠ x + 1 := by
  intro h
  have := congrArg (fun y => y - x) h
  simp at this

theorem sp_ne_up_two (x : Addr) : x ≠ x + 2 := by
  intro h
  have := congrArg (fun y => y - x) h
  simp at this

theorem operandB_cell (s : State) : operandB s = topCell s := rfl

theorem operandA_cell (s : State) : operandA s = belowCell s := by
  show readMem s (s.sp + 1 + 1) = readMem s (s.sp + 2)
  rw [sp_up_twice]

theorem afterTwoPops_eq (s : State) : afterTwoPops s = { s with sp := s.sp + 2 } := by
  show { s with sp := s.sp + 1 + 1 } = { s with sp := s.sp + 2 }
  rw [sp_up_twice]

/-- A pop takes back what a push put: the value, and the stack pointer. -/
theorem pop_push (v : Byte) (s : State) : (pop (push v s)).1 = v ∧ (pop (push v s)).2.sp = s.sp := by
  constructor
  · simp
  · simp

/-! ### The operand forms -/

/-- What the two-operand form does, in cells. -/
theorem binary_spec (f : Byte → Byte → Byte) (s : State) :
    binary f s = .next (advance (push (f (belowCell s) (topCell s)) { s with sp := s.sp + 2 })) := by
  rw [← operandA_cell, ← operandB_cell, ← afterTwoPops_eq]; rfl

/-- What the one-operand form does, in cells. -/
theorem unary_spec (f : Byte → Byte) (s : State) :
    unary f s = .next (advance (push (f (topCell s)) { s with sp := s.sp + 1 })) := rfl

/-- What the dividing form does with a nonzero divisor. -/
theorem divisive_nonzero (f : Byte → Byte → Byte) (s : State) (h : topCell s ≠ 0) : divisive f s = binary f s := by
  have h' : (pop s).1 ≠ 0 := h
  simp only [divisive, binary, if_neg h']

/-- What the dividing form does with a zero divisor: everything but `rs` and the wait condition is as before. -/
theorem divisive_zero (f : Byte → Byte → Byte) (s : State) (h : topCell s = 0) :
    divisive f s = .next { s with rs := .faultArith, wait := false } := by
  have h' : (pop s).1 = 0 := h
  simp only [divisive, if_pos h']; rfl

/-! ### The ports -/

/-- A transaction whose reply is `ok` answers true, another one false. -/
theorem reply_ok_iff (s : State) : (nextReply s == .ok) = true ↔ nextReply s = .ok := by
  simp

/-- The end of a writing instruction: the two outcomes. -/
theorem finishWrite_outWrite (before now : State) (bs : List Byte) :
    finishWrite before (outWrite bs now) =
      if nextReply now = .ok then .next (advance (outWrite bs now).2)
      else .next (raiseFault .io before (outWrite bs now).2) := by
  unfold finishWrite
  simp

/-- What the wait does: enter it, or have no successor. -/
theorem awaitInput_spec (before now : State) :
    awaitInput before now =
      if before.wait then .fault .inputPending else .next { now with wait := true } := rfl

/-- A byte read answers from the front of the input. -/
theorem inReadByte_byte {s : State} {b : Byte} {rest : List InItem} (h : s.input = .byte b :: rest) :
    inReadByte s = .data b (answered rest 1 s) := by
  simp [inReadByte, h]

theorem inReadByte_error {s : State} {rest : List InItem} (h : s.input = .readError :: rest) :
    inReadByte s = .fails (answered rest 0 s) := by
  simp [inReadByte, h]

theorem inReadByte_empty {s : State} (h : s.input = []) :
    inReadByte s = if s.inEnded then .fails (answered [] 0 s) else .pending := by
  simp [inReadByte, h]

/-- A line scan runs over bytes that are no LF. -/
theorem scanLine_bytes (ended : Bool) (got line : List Byte) (rest : List InItem) (h : lf ∉ line) :
    scanLine ended got (line.map .byte ++ rest) = scanLine ended (got ++ line) rest := by
  induction line generalizing got with
  | nil => simp
  | cons b line ih =>
    have hb : b ≠ lf := fun e => h (by simp [e])
    have hl : lf ∉ line := fun e => h (List.mem_cons_of_mem _ e)
    simp [scanLine, hb, ih _ hl]

/-- What a line scan can find: a line with its LF, a read error before any LF, or neither. -/
theorem scanLine_cases (ended : Bool) (got : List Byte) (input : List InItem) :
    (∃ (l : List Byte) (rest : List InItem), lf ∉ l ∧ input = l.map .byte ++ .byte lf :: rest ∧
      scanLine ended got input = .line (got ++ l ++ [lf]) rest) ∨
    (∃ (l : List Byte) (rest : List InItem), lf ∉ l ∧ input = l.map .byte ++ .readError :: rest ∧
      scanLine ended got input = .fails (got.length + l.length) rest) ∨
    (∃ l : List Byte, lf ∉ l ∧ input = l.map .byte ∧
      scanLine ended got input =
        if ended then (if (got ++ l).isEmpty then .fails 0 [] else .line (got ++ l) []) else .pending) := by
  induction input generalizing got with
  | nil => exact .inr (.inr ⟨[], by simp, rfl, by simp [scanLine]⟩)
  | cons item input ih =>
    cases item with
    | readError => exact .inr (.inl ⟨[], input, by simp, rfl, by simp [scanLine]⟩)
    | byte b =>
      by_cases hb : b = lf
      · exact .inl ⟨[], input, by simp, by simp [hb], by simp [scanLine, hb]⟩
      · rcases ih (got ++ [b]) with ⟨l, rest, h1, h2, h3⟩ | ⟨l, rest, h1, h2, h3⟩ | ⟨l, h1, h2, h3⟩
        · exact .inl ⟨b :: l, rest, by simp [h1, Ne.symm hb], by simp [h2], by simp [scanLine, hb, h3]⟩
        · exact .inr (.inl ⟨b :: l, rest, by simp [h1, Ne.symm hb], by simp [h2], by simp [scanLine, hb, h3]; omega⟩)
        · exact .inr (.inr ⟨b :: l, by simp [h1, Ne.symm hb], by simp [h2], by simp [scanLine, hb, h3]⟩)

theorem inReadLine_ahead {s : State} {line : List Byte} {rest : List InItem} (h : lineAhead s line rest) :
    inReadLine s = .data line (answered rest line.length s) := by
  have scan : scanLine s.inEnded [] s.input = .line line rest := by
    rcases h with ⟨l, h1, h2, h3⟩ | ⟨h1, h2, h3, h4, h5⟩
    · rw [h3, scanLine_bytes _ _ _ _ h1]; simp [scanLine, h2]
    · have all := scanLine_bytes s.inEnded [] line [] h2
      rw [List.append_nil] at all
      rw [h3, all]; simp [scanLine, h5, h1, h4]
  simp [inReadLine, scan]

theorem inReadLine_fails {s : State} {n : Nat} {rest : List InItem} (h : lineFails s n rest) :
    inReadLine s = .fails (answered rest n s) := by
  have scan : scanLine s.inEnded [] s.input = .fails n rest := by
    rcases h with ⟨l, h1, h2, h3⟩ | ⟨h1, h2, h3, h4⟩
    · rw [h2, scanLine_bytes _ _ _ _ h1]; simp [scanLine, h3]
    · simp [h1, scanLine, h2, h3, h4]
  simp [inReadLine, scan]

theorem inReadLine_pending {s : State} (h : linePending s) : inReadLine s = .pending := by
  rcases h with ⟨l, h1, h2, h3⟩
  have all := scanLine_bytes s.inEnded [] l [] h1
  rw [List.append_nil] at all
  have scan : scanLine s.inEnded [] s.input = .pending := by rw [h2, all]; simp [scanLine, h3]
  simp [inReadLine, scan]

/-- One of the three cases of a line read always holds. -/
theorem line_cases (s : State) :
    (∃ line rest, lineAhead s line rest) ∨ (∃ n rest, lineFails s n rest) ∨ linePending s := by
  rcases scanLine_cases s.inEnded [] s.input with ⟨l, rest, h1, h2, _⟩ | ⟨l, rest, h1, h2, _⟩ | ⟨l, h1, h2, _⟩
  · exact .inl ⟨_, rest, .inl ⟨l, h1, rfl, h2⟩⟩
  · exact .inr (.inl ⟨_, rest, .inl ⟨l, h1, h2, rfl⟩⟩)
  · cases he : s.inEnded with
    | false => exact .inr (.inr ⟨l, h1, h2, he⟩)
    | true =>
      by_cases hl : l = []
      · subst hl; exact .inr (.inl ⟨0, [], .inr ⟨h2, he, rfl, rfl⟩⟩)
      · exact .inl ⟨l, [], .inr ⟨hl, h1, h2, rfl, he⟩⟩

/-- The reply where the port answers `ok` to the next transaction. -/
theorem nextReply_ok {s : State} (h : repliesOk 1 s) : nextReply s = .ok := by
  unfold repliesOk at h
  unfold nextReply
  cases e : s.outReplies with
  | nil => rfl
  | cons r more => simp [e] at h; simp [h]

/-! ### `i` from its read on -/

/-- A core that waits at `i` goes on at the read. -/
theorem exec_indec_waiting {s : State} (h : s.wait = true) : exec .indec s = readDecimal s s := by
  show execIndec s = _
  simp [execIndec, h]

/-- `i` whose prompt and flush are answered `ok` comes to its read. -/
theorem exec_indec_prompted {s : State} (h : s.wait = false) (first : nextReply s = .ok)
    (second : nextReply (outWrite prompt s).2 = .ok) :
    exec .indec s = readDecimal s (outFlush (outWrite prompt s).2).2 := by
  show execIndec s = _
  simp [execIndec, h, first, second]

theorem readDecimal_ahead {b s : State} {line : List Byte} {rest : List InItem} (h : lineAhead s line rest) :
    readDecimal b s = match parseLine line with
      | some v => .next (advance (push v (answered rest line.length s)))
      | none => .next (raiseFault .io b (answered rest line.length s)) := by
  cases parsed : parseLine line <;> simp [readDecimal, inReadLine_ahead h, parsed]

theorem readDecimal_fails {b s : State} {n : Nat} {rest : List InItem} (h : lineFails s n rest) :
    readDecimal b s = .next (raiseFault .io b (answered rest n s)) := by
  simp only [readDecimal, inReadLine_fails h]

theorem readDecimal_pending {b s : State} (h : linePending s) : readDecimal b s = awaitInput b s := by
  simp only [readDecimal, inReadLine_pending h]

/-! ### The step -/

theorem step_running {s : State} (h : s.rs = .running) : step s = exec (current s) s := by
  simp [step, cycle, h]

theorem step_terminal {s : State} (h : s.rs ≠ .running) : step s = .next s := by
  simp [step, cycle, h, terminalStep]

/-- One more step of a run, of any machine of the host's interface. -/
theorem machine_run_next (M : Host.Core) {s t : M.State} (h : M.step s = .next t) (n : Nat) :
    M.run (n + 1) s = M.run n t := by
  rw [Host.Core.run, h]

/-- One more step of a run of the core. -/
theorem core_run_next {s t : State} (h : step s = .next t) (n : Nat) : core.run (n + 1) s = core.run n t :=
  machine_run_next core h n

theorem current_congr {s t : State} (hm : t.mem = s.mem) (hp : t.pc = s.pc) : current t = current s := by
  simp [current, fetch, readMem, hm, hp]

end Sys2Proof.Machine
end

