-- ==== Sys2Proof/Laws/Exec.lean ====
section
/-! SUPPORT. The inversion lemma of the machine: whatever the instruction, what can have happened if `exec` answers a
next state, and when it answers none. Claims about every step cite it instead of unfolding the meanings. -/

namespace Sys2Proof.Machine

/-- The ways an instruction can end. -/
inductive Ending (i : Instr) (s t : State) : Prop where
  /-- It completed: the run state is kept, `sp` moved by the table. -/
  | completed (rs : t.rs = s.rs) (sp : t.sp = s.sp + netSp i) (goesOn : ¬ halts i)
      (divisor : divides i → topCell s ≠ 0)
      (wait : t.wait = s.wait ∧ ¬ readsInput i ∨ t.wait = false ∧ readsInput i)
  /-- It halted. -/
  | halted (who : halts i) (result : t = halt s)
  /-- It divided by zero. -/
  | arith (who : divides i) (zero : topCell s = 0) (result : t = { s with rs := .faultArith, wait := false })
  /-- A transaction failed, or a line did not parse. -/
  | io (who : usesPorts i) (mem : t.mem = s.mem) (pc : t.pc = s.pc) (sp : t.sp = s.sp) (rs : t.rs = .faultIO)
      (wait : t.wait = false)
  /-- It began to wait. -/
  | waits (who : readsInput i) (mem : t.mem = s.mem) (pc : t.pc = s.pc) (sp : t.sp = s.sp) (rs : t.rs = s.rs)
      (was : s.wait = false) (wait : t.wait = true) (prompted : i = .indec → t.out = s.out ++ promptEvents)

/-- All that an instruction which answers a next state can have done. -/
structure Effect (i : Instr) (s t : State) : Prop where
  ending : Ending i s t
  canonical : s.mem.wf = true → t.mem.wf = true
  inEnded : t.inEnded = s.inEnded
  silent : ¬ writesOutput i → t.out = s.out ∧ t.outReplies = s.outReplies
  noInput : ¬ readsInput i → t.input = s.input ∧ t.inPos = s.inPos
  output : ∃ events, t.out = s.out ++ events ∧ events.length ≤ 2 ∧
    (t.rs ≠ .faultIO → ∀ e ∈ events, e.reply = .ok) ∧ ∀ e ∈ events.dropLast, e.reply = .ok
  consumed : ∃ used, s.input = used ++ t.input ∧ t.inPos = s.inPos + countBytes used

theorem wf_push {s : State} (h : s.mem.wf = true) (v : Byte) : (push v s).mem.wf = true :=
  Memory.wf_write h s.sp.isLt v

theorem wf_writeMem {s : State} (h : s.mem.wf = true) (a : Addr) (v : Byte) : (writeMem s a v).mem.wf = true :=
  Memory.wf_write h a.isLt v

/-- The effect of an instruction that leaves the ports alone. -/
theorem Effect.ofPortless {i : Instr} {s t : State} (ending : Ending i s t)
    (canonical : s.mem.wf = true → t.mem.wf = true) (input : t.input = s.input) (inEnded : t.inEnded = s.inEnded)
    (inPos : t.inPos = s.inPos) (out : t.out = s.out) (replies : t.outReplies = s.outReplies) : Effect i s t where
  ending := ending
  canonical := canonical
  inEnded := inEnded
  silent := fun _ => ⟨out, replies⟩
  noInput := fun _ => ⟨input, inPos⟩
  output := ⟨[], by simp [out], by simp, by simp, by simp⟩
  consumed := ⟨[], by simp [input], by simp [inPos, countBytes]⟩

theorem countBytes_append (l m : List InItem) : countBytes (l ++ m) = countBytes l + countBytes m := by
  induction l with
  | nil => simp [countBytes]
  | cons item l ih =>
    cases item with
    | byte b => simp [countBytes, ih]; omega
    | readError => simp [countBytes, ih]

theorem countBytes_map (l : List Byte) : countBytes (l.map .byte) = l.length := by
  induction l with
  | nil => rfl
  | cons b l ih => simp [countBytes, ih]

/-- What an answered line read has consumed. -/
theorem lineAhead_consumes {s : State} {line : List Byte} {rest : List InItem} (h : lineAhead s line rest) :
    s.input = line.map .byte ++ rest := by
  rcases h with ⟨l, _, h2, h3⟩ | ⟨_, _, h3, h4, _⟩
  · simp [h2, h3]
  · simp [h3, h4]

theorem lineFails_consumes {s : State} {n : Nat} {rest : List InItem} (h : lineFails s n rest) :
    ∃ used, s.input = used ++ rest ∧ n = countBytes used := by
  rcases h with ⟨l, _, h2, h3⟩ | ⟨h1, _, h3, h4⟩
  · exact ⟨l.map .byte ++ [.readError], by simp [h2], by simp [h3, countBytes_append, countBytes_map, countBytes]⟩
  · exact ⟨[], by simp [h1, h4], by simp [h3, countBytes]⟩

/-! ### Each shape of instruction -/

theorem effect_binary {i : Instr} {s : State} (f : Byte → Byte → Byte) (shape : exec i s = binary f s)
    (net : netSp i = 1) (goesOn : ¬ halts i) (noRead : ¬ readsInput i) (divisor : divides i → topCell s ≠ 0) :
    ∃ t, exec i s = .next t ∧ Effect i s t :=
  ⟨_, shape.trans (binary_spec f s), .ofPortless (.completed rfl (by rw [net]; exact sp_up_twice_down _) goesOn divisor
      (.inl ⟨rfl, noRead⟩)) (fun h => wf_push (s := { s with sp := s.sp + 2 }) h _) rfl rfl rfl rfl rfl⟩

theorem effect_unary {i : Instr} {s : State} (f : Byte → Byte) (shape : exec i s = unary f s)
    (net : netSp i = 0) (goesOn : ¬ halts i) (noRead : ¬ readsInput i) (divisor : ¬ divides i) :
    ∃ t, exec i s = .next t ∧ Effect i s t :=
  ⟨_, shape.trans (unary_spec f s), .ofPortless (.completed rfl (by simp [net]) goesOn (fun h => absurd h divisor)
      (.inl ⟨rfl, noRead⟩)) (fun h => wf_push (s := { s with sp := s.sp + 1 }) h _) rfl rfl rfl rfl rfl⟩

theorem effect_divisive {i : Instr} {s : State} (f : Byte → Byte → Byte) (shape : exec i s = divisive f s)
    (net : netSp i = 1) (goesOn : ¬ halts i) (noRead : ¬ readsInput i) (who : divides i) :
    ∃ t, exec i s = .next t ∧ Effect i s t := by
  by_cases hz : topCell s = 0
  · exact ⟨_, shape.trans (divisive_zero f s hz), .ofPortless (.arith who hz rfl) (fun h => h) rfl rfl rfl rfl rfl⟩
  · exact effect_binary f (shape.trans (divisive_nonzero f s hz)) net goesOn noRead (fun _ => hz)

theorem effect_pushNibble {i : Instr} {s : State} (n : BitVec 4) (shape : exec i s = pushNibble n s)
    (net : netSp i = -1) (goesOn : ¬ halts i) (noRead : ¬ readsInput i) (divisor : ¬ divides i) :
    ∃ t, exec i s = .next t ∧ Effect i s t :=
  ⟨_, shape, .ofPortless (.completed rfl (by rw [net]; exact BitVec.sub_eq_add_neg _ _) goesOn (fun h => absurd h divisor)
      (.inl ⟨rfl, noRead⟩)) (fun h => wf_push h _) rfl rfl rfl rfl rfl⟩

/-- A writing instruction that changes the stack pointer only, in the state `now`, before its one write. -/
theorem effect_finishWrite {i : Instr} {s now : State} (bytes : List Byte)
    (shape : exec i s = finishWrite s (outWrite bytes now)) (moved : now = { s with sp := s.sp + netSp i })
    (writes : writesOutput i) (goesOn : ¬ halts i) (noRead : ¬ readsInput i) (divisor : ¬ divides i) :
    ∃ t, exec i s = .next t ∧ Effect i s t := by
  subst moved
  rw [finishWrite_outWrite] at shape
  split at shape
  · next ok =>
    refine ⟨_, shape, .completed rfl rfl goesOn (fun h => absurd h divisor) (.inl ⟨rfl, noRead⟩), fun h => h, rfl,
      fun h => absurd writes h, fun _ => ⟨rfl, rfl⟩, ⟨_, rfl, by simp, ?_, by simp⟩, ⟨[], by simp, by simp [countBytes]⟩⟩
    intro _ e he
    rw [List.mem_singleton] at he
    rw [he]; exact ok
  · exact ⟨_, shape, .io (.inr writes) rfl rfl rfl rfl rfl, fun h => h, rfl, fun h => absurd writes h,
      fun _ => ⟨rfl, rfl⟩, ⟨_, rfl, by simp, fun h => absurd rfl h, by simp⟩, ⟨[], by simp, by simp [countBytes]⟩⟩

/-- `:` in all its cases. -/
theorem effect_inbyte (s : State) :
    (∃ t, exec .inbyte s = .next t ∧ Effect .inbyte s t) ∨
      (exec .inbyte s = .fault .inputPending ∧ s.wait = true ∧ s.inEnded = false ∧ s.input = []) := by
  have reads : readsInput .inbyte := .inr rfl
  have noWrite : ¬ writesOutput .inbyte := by simp [writesOutput]
  have shape : exec .inbyte s = execInbyte s := rfl
  rcases hi : s.input with _ | ⟨item, rest⟩
  · cases he : s.inEnded with
    | true =>
      refine .inl ⟨raiseFault .io s (answered [] 0 s), by simp [shape, execInbyte, inReadByte_empty hi, he], ?_⟩
      exact ⟨.io (.inl reads) rfl rfl rfl rfl rfl, fun h => h, rfl, fun _ => ⟨rfl, rfl⟩, fun h => absurd reads h,
        ⟨[], by simp, by simp, by simp, by simp⟩, ⟨[], by simp [hi], by simp [countBytes]⟩⟩
    | false =>
      have wait : exec .inbyte s = awaitInput s s := by simp [shape, execInbyte, inReadByte_empty hi, he]
      rw [awaitInput_spec] at wait
      cases hw : s.wait with
      | true => exact .inr ⟨by simpa [hw] using wait, rfl, rfl, rfl⟩
      | false =>
        refine .inl ⟨{ s with wait := true }, by simpa [hw] using wait, ?_⟩
        exact .ofPortless (.waits reads rfl rfl rfl rfl hw rfl (by simp)) (fun h => h) rfl rfl rfl rfl rfl
  · cases item with
    | byte b =>
      refine .inl ⟨advance (push b (answered rest 1 s)), by simp only [shape, execInbyte, inReadByte_byte hi], ?_⟩
      exact ⟨.completed rfl (by simp [netSp]; exact BitVec.sub_eq_add_neg _ _) (by simp [halts]) (by simp [divides])
        (.inr ⟨rfl, reads⟩),
        fun h => wf_push (s := answered rest 1 s) h b, rfl, fun _ => ⟨rfl, rfl⟩, fun h => absurd reads h,
        ⟨[], by simp, by simp, by simp, by simp⟩, ⟨[.byte b], by simp [hi], by simp [countBytes]⟩⟩
    | readError =>
      refine .inl ⟨raiseFault .io s (answered rest 0 s), by simp only [shape, execInbyte, inReadByte_error hi], ?_⟩
      exact ⟨.io (.inl reads) rfl rfl rfl rfl rfl, fun h => h, rfl, fun _ => ⟨rfl, rfl⟩, fun h => absurd reads h,
        ⟨[], by simp, by simp, by simp, by simp⟩, ⟨[.readError], by simp [hi], by simp [countBytes]⟩⟩

theorem lineAhead_congr {s t : State} {line : List Byte} {rest : List InItem} (hi : t.input = s.input)
    (he : t.inEnded = s.inEnded) (h : lineAhead s line rest) : lineAhead t line rest := by
  unfold lineAhead at *; rw [hi, he]; exact h

theorem lineFails_congr {s t : State} {n : Nat} {rest : List InItem} (hi : t.input = s.input)
    (he : t.inEnded = s.inEnded) (h : lineFails s n rest) : lineFails t n rest := by
  unfold lineFails at *; rw [hi, he]; exact h

theorem linePending_congr {s t : State} (hi : t.input = s.input) (he : t.inEnded = s.inEnded)
    (h : linePending s) : linePending t := by
  unfold linePending at *; rw [hi, he]; exact h

/-- `i` from its read on, in a state `now` that differs from the state `s` it began in by output events all answered
`ok`. -/
theorem effect_readDecimal {s now : State} (events : List OutEvent) (core : sameCore s now)
    (input : now.input = s.input) (inEnded : now.inEnded = s.inEnded) (inPos : now.inPos = s.inPos)
    (out : now.out = s.out ++ events) (few : events.length ≤ 2) (ok : ∀ e ∈ events, e.reply = .ok)
    (prompts : s.wait = false → events = promptEvents) :
    (∃ t, readDecimal s now = .next t ∧ Effect .indec s t) ∨
      (readDecimal s now = .fault .inputPending ∧ s.wait = true ∧ s.inEnded = false ∧ linePending s) := by
  have reads : readsInput .indec := .inl rfl
  have writes : writesOutput .indec := .inl rfl
  obtain ⟨hm, hp, hs, hr⟩ := core
  have okLast : ∀ e ∈ events.dropLast, e.reply = .ok := fun e he => ok e (List.mem_of_mem_dropLast he)
  rcases line_cases s with ⟨line, rest, h⟩ | ⟨n, rest, h⟩ | h
  · have shape := readDecimal_ahead (b := s) (lineAhead_congr input inEnded h)
    have used := lineAhead_consumes h
    cases hv : parseLine line with
    | some v =>
      simp only [hv] at shape
      refine .inl ⟨_, shape, .completed hr ?_ (by simp [halts]) (by simp [divides])
        (.inr ⟨rfl, reads⟩), fun w => ?_, inEnded,
        fun w => absurd writes w, fun w => absurd reads w, ⟨events, out, few, fun _ => ok, okLast⟩,
        ⟨line.map .byte, used, ?_⟩⟩
      · show now.sp - 1 = s.sp + -1
        rw [hs]; exact BitVec.sub_eq_add_neg _ _
      · exact wf_push (s := answered rest line.length now) (by rw [answered_mem, hm]; exact w) v
      · show now.inPos + _ = _
        rw [inPos, countBytes_map]
    | none =>
      simp only [hv] at shape
      refine .inl ⟨_, shape, .io (.inl reads) rfl rfl rfl rfl rfl, fun w => w, inEnded,
        fun w => absurd writes w, fun w => absurd reads w, ⟨events, out, few, fun _ => ok, okLast⟩,
        ⟨line.map .byte, used, ?_⟩⟩
      show now.inPos + _ = _
      rw [inPos, countBytes_map]
  · obtain ⟨used, h1, h2⟩ := lineFails_consumes h
    refine .inl ⟨_, readDecimal_fails (lineFails_congr input inEnded h), .io (.inl reads) rfl rfl rfl rfl rfl,
      fun w => w, inEnded, fun w => absurd writes w, fun w => absurd reads w,
      ⟨events, out, few, fun _ => ok, okLast⟩, ⟨used, h1, ?_⟩⟩
    show now.inPos + _ = _
    rw [inPos, h2]
  · have shape := readDecimal_pending (b := s) (linePending_congr input inEnded h)
    rw [awaitInput_spec] at shape
    cases hw : s.wait with
    | true =>
      obtain ⟨_, _, _, open'⟩ := id h
      exact .inr ⟨by simpa [hw] using shape, rfl, open', h⟩
    | false =>
      refine .inl ⟨{ now with wait := true }, by simpa [hw] using shape, .waits reads hm hp hs hr hw rfl (fun _ => ?_),
        fun w => ?_, inEnded, fun w => absurd writes w, fun w => absurd reads w, ⟨events, out, few, fun _ => ok, okLast⟩,
        ⟨[], by simp [input], by simp [inPos, countBytes]⟩⟩
      · show now.out = _
        rw [out, prompts hw]
      · show now.mem.wf = true
        rw [hm]; exact w

/-- `i` in all its cases. -/
theorem effect_indec (s : State) :
    (∃ t, exec .indec s = .next t ∧ Effect .indec s t) ∨
      (exec .indec s = .fault .inputPending ∧ s.wait = true ∧ s.inEnded = false ∧ linePending s) := by
  have writes : writesOutput .indec := .inl rfl
  have shape : exec .indec s = execIndec s := rfl
  cases hw : s.wait with
  | true =>
    rw [exec_indec_waiting hw]
    have all := effect_readDecimal (s := s) (now := s) [] ⟨rfl, rfl, rfl, rfl⟩ rfl rfl rfl (by simp) (by simp) (by simp)
      (by simp [hw])
    simpa only [hw] using all
  | false =>
    by_cases h1 : nextReply s = .ok
    · by_cases h2 : nextReply (outWrite prompt s).2 = .ok
      · have read : exec .indec s = readDecimal s (outFlush (outWrite prompt s).2).2 := by
          simp [shape, execIndec, hw, h1, h2]
        rw [read]
        have all := effect_readDecimal (s := s) (now := (outFlush (outWrite prompt s).2).2) promptEvents ⟨rfl, rfl, rfl, rfl⟩
          rfl rfl rfl (by simp [promptEvents, h1, h2]) (by simp [promptEvents]) (by simp [promptEvents, OutEvent.reply]) (fun _ => rfl)
        simpa only [hw] using all
      · refine .inl ⟨raiseFault .io s (outFlush (outWrite prompt s).2).2, by simp [shape, execIndec, hw, h1, h2], ?_⟩
        exact ⟨.io (.inr writes) rfl rfl rfl rfl rfl, fun w => w, rfl, fun w => absurd writes w, fun _ => ⟨rfl, rfl⟩,
          ⟨[.write prompt .ok, .flush (nextReply (outWrite prompt s).2)], by simp [h1], by simp, fun w => absurd rfl w,
            by simp [OutEvent.reply]⟩, ⟨[], by simp, by simp [countBytes]⟩⟩
    · refine .inl ⟨raiseFault .io s (outWrite prompt s).2, by simp [shape, execIndec, hw, h1], ?_⟩
      exact ⟨.io (.inr writes) rfl rfl rfl rfl rfl, fun w => w, rfl, fun w => absurd writes w, fun _ => ⟨rfl, rfl⟩,
        ⟨[.write prompt (nextReply s)], by simp, by simp, fun w => absurd rfl w, by simp⟩,
        ⟨[], by simp, by simp [countBytes]⟩⟩

/-- What any instruction can do: it answers a next state with its effect, or it waits already and has no successor. -/
theorem exec_effect (i : Instr) (s : State) :
    (∃ t, exec i s = .next t ∧ Effect i s t) ∨
      (exec i s = .fault .inputPending ∧ s.wait = true ∧ s.inEnded = false ∧
        (i = .indec ∧ linePending s ∨ i = .inbyte ∧ s.input = [])) := by
  by_cases hin : readsInput i
  · rcases hin with rfl | rfl
    · exact (effect_indec s).imp id fun ⟨h1, h2, h3, h4⟩ => ⟨h1, h2, h3, .inl ⟨rfl, h4⟩⟩
    · exact (effect_inbyte s).imp id fun ⟨h1, h2, h3, h4⟩ => ⟨h1, h2, h3, .inr ⟨rfl, h4⟩⟩
  · left
    cases i
    case indec => exact absurd (.inl rfl) hin
    case inbyte => exact absurd (.inr rfl) hin
    case outdec =>
      exact effect_finishWrite _ rfl rfl (.inr (.inl rfl)) (by simp [halts])
        (by simp [readsInput]) (by simp [divides])
    case outbyte =>
      exact effect_finishWrite _ rfl rfl (.inr (.inr (.inl rfl))) (by simp [halts])
        (by simp [readsInput]) (by simp [divides])
    case dump =>
      exact effect_finishWrite _ rfl (by simp [netSp]) (.inr (.inr (.inr rfl))) (by simp [halts])
        (by simp [readsInput]) (by simp [divides])
    case halt => exact ⟨_, rfl, .ofPortless (.halted (.inl rfl) rfl) (fun h => h) rfl rfl rfl rfl rfl⟩
    case unrecognized op =>
      exact ⟨_, rfl, .ofPortless (.halted (.inr ⟨op, rfl⟩) rfl) (fun h => h) rfl rfl rfl rfl rfl⟩
    case div => exact effect_divisive _ rfl rfl (by simp [halts]) (by simp [readsInput]) (.inl rfl)
    case rem => exact effect_divisive _ rfl rfl (by simp [halts]) (by simp [readsInput]) (.inr rfl)
    case lnot => exact effect_unary _ rfl rfl (by simp [halts]) (by simp [readsInput]) (by simp [divides])
    case not => exact effect_unary _ rfl rfl (by simp [halts]) (by simp [readsInput]) (by simp [divides])
    case comb => exact effect_binary combine rfl rfl (by simp [halts]) (by simp [readsInput]) (by simp [divides])
    case add => exact effect_binary _ rfl rfl (by simp [halts]) (by simp [readsInput]) (by simp [divides])
    case sub => exact effect_binary _ rfl rfl (by simp [halts]) (by simp [readsInput]) (by simp [divides])
    case mul => exact effect_binary _ rfl rfl (by simp [halts]) (by simp [readsInput]) (by simp [divides])
    case pow => exact effect_binary _ rfl rfl (by simp [halts]) (by simp [readsInput]) (by simp [divides])
    case eq => exact effect_binary _ rfl rfl (by simp [halts]) (by simp [readsInput]) (by simp [divides])
    case lt => exact effect_binary _ rfl rfl (by simp [halts]) (by simp [readsInput]) (by simp [divides])
    case gt => exact effect_binary _ rfl rfl (by simp [halts]) (by simp [readsInput]) (by simp [divides])
    case or => exact effect_binary _ rfl rfl (by simp [halts]) (by simp [readsInput]) (by simp [divides])
    case and => exact effect_binary _ rfl rfl (by simp [halts]) (by simp [readsInput]) (by simp [divides])
    case xor => exact effect_binary _ rfl rfl (by simp [halts]) (by simp [readsInput]) (by simp [divides])
    case swap =>
      refine ⟨_, rfl, .ofPortless (.completed rfl (by simp [netSp]) (by simp [halts]) (by simp [divides])
        (.inl ⟨rfl, by simp [readsInput]⟩)) (fun h => ?_)
        rfl rfl rfl rfl rfl⟩
      exact wf_push (wf_push (s := (pop (pop s).2).2) h _) _
    case dup =>
      refine ⟨_, rfl, .ofPortless (.completed rfl (by simp [netSp, BitVec.sub_eq_add_neg]) (by simp [halts]) (by simp [divides])
        (.inl ⟨rfl, by simp [readsInput]⟩)) (fun h => ?_) rfl rfl rfl rfl rfl⟩
      exact wf_push (wf_push (s := (pop s).2) h _) _
    case drop =>
      exact ⟨_, rfl, .ofPortless (.completed rfl rfl (by simp [halts]) (by simp [divides])
        (.inl ⟨rfl, by simp [readsInput]⟩)) (fun h => h)
        rfl rfl rfl rfl rfl⟩
    case jmp =>
      exact ⟨_, rfl, .ofPortless (.completed rfl rfl (by simp [halts]) (by simp [divides])
        (.inl ⟨rfl, by simp [readsInput]⟩)) (fun h => h)
        rfl rfl rfl rfl rfl⟩
    case jnz =>
      have shape : exec .jnz s = .next (if condHolds (operandA s) then jump (operandB s) (afterTwoPops s)
        else advance (afterTwoPops s)) := rfl
      rw [afterTwoPops_eq] at shape
      split at shape
      · exact ⟨_, shape, .ofPortless (.completed rfl rfl (by simp [halts]) (by simp [divides])
        (.inl ⟨rfl, by simp [readsInput]⟩)) (fun h => h)
          rfl rfl rfl rfl rfl⟩
      · exact ⟨_, shape, .ofPortless (.completed rfl rfl (by simp [halts]) (by simp [divides])
        (.inl ⟨rfl, by simp [readsInput]⟩)) (fun h => h)
          rfl rfl rfl rfl rfl⟩
    case load =>
      refine ⟨_, rfl, .ofPortless (.completed rfl (by simp [netSp]) (by simp [halts]) (by simp [divides])
        (.inl ⟨rfl, by simp [readsInput]⟩)) (fun h => ?_)
        rfl rfl rfl rfl rfl⟩
      exact wf_push (s := (pop s).2) h _
    case store =>
      refine ⟨_, rfl, .ofPortless (.completed rfl (sp_up_twice _) (by simp [halts]) (by simp [divides])
        (.inl ⟨rfl, by simp [readsInput]⟩))
        (fun h => ?_) rfl rfl rfl rfl rfl⟩
      exact wf_writeMem (s := (pop (pop s).2).2) h _ _
    case pushn0 => exact effect_pushNibble 0 rfl rfl (by simp [halts]) (by simp [readsInput]) (by simp [divides])
    case pushn1 => exact effect_pushNibble 1 rfl rfl (by simp [halts]) (by simp [readsInput]) (by simp [divides])
    case pushn2 => exact effect_pushNibble 2 rfl rfl (by simp [halts]) (by simp [readsInput]) (by simp [divides])
    case pushn3 => exact effect_pushNibble 3 rfl rfl (by simp [halts]) (by simp [readsInput]) (by simp [divides])
    case pushn4 => exact effect_pushNibble 4 rfl rfl (by simp [halts]) (by simp [readsInput]) (by simp [divides])
    case pushn5 => exact effect_pushNibble 5 rfl rfl (by simp [halts]) (by simp [readsInput]) (by simp [divides])
    case pushn6 => exact effect_pushNibble 6 rfl rfl (by simp [halts]) (by simp [readsInput]) (by simp [divides])
    case pushn7 => exact effect_pushNibble 7 rfl rfl (by simp [halts]) (by simp [readsInput]) (by simp [divides])
    case pushn8 => exact effect_pushNibble 8 rfl rfl (by simp [halts]) (by simp [readsInput]) (by simp [divides])
    case pushn9 => exact effect_pushNibble 9 rfl rfl (by simp [halts]) (by simp [readsInput]) (by simp [divides])
    case pushn10 => exact effect_pushNibble 10 rfl rfl (by simp [halts]) (by simp [readsInput]) (by simp [divides])
    case pushn11 => exact effect_pushNibble 11 rfl rfl (by simp [halts]) (by simp [readsInput]) (by simp [divides])
    case pushn12 => exact effect_pushNibble 12 rfl rfl (by simp [halts]) (by simp [readsInput]) (by simp [divides])
    case pushn13 => exact effect_pushNibble 13 rfl rfl (by simp [halts]) (by simp [readsInput]) (by simp [divides])
    case pushn14 => exact effect_pushNibble 14 rfl rfl (by simp [halts]) (by simp [readsInput]) (by simp [divides])
    case pushn15 => exact effect_pushNibble 15 rfl rfl (by simp [halts]) (by simp [readsInput]) (by simp [divides])

/-- The inversion: if an instruction answers a next state, that state shows its effect. -/
theorem exec_inv {i : Instr} {s t : State} (h : exec i s = .next t) : Effect i s t := by
  rcases exec_effect i s with ⟨t', h1, e⟩ | ⟨h1, _⟩
  · rw [h] at h1
    injection h1 with h1
    rw [h1]; exact e
  · rw [h] at h1
    exact Host.Outcome.noConfusion rfl rfl rfl (heq_of_eq h1)

/-- The inversion of a step: it changed nothing in a terminal state, or it shows the effect of the instruction at
`pc`. -/
theorem step_inv {s t : State} (h : step s = .next t) :
    (s.rs ≠ .running ∧ t = s) ∨ (s.rs = .running ∧ Effect (current s) s t) := by
  by_cases hr : s.rs = .running
  · rw [step_running hr] at h
    exact .inr ⟨hr, exec_inv h⟩
  · rw [step_terminal hr] at h
    injection h with h
    exact .inl ⟨hr, h.symm⟩

end Sys2Proof.Machine
end

