-- ==== Sys2Proof/Laws/PerInstr.lean ====
section
/-! SUPPORT. Families of statements about each instruction as syntax, one lemma per constructor. -/

namespace Sys2Proof.Laws

/-- The byte of a well-formed instruction decodes to it. -/
def RoundTrip.Statement (i : Instr) : Prop :=
  i.wellFormed = true → decode (encode i) = i

theorem RoundTrip.halt : RoundTrip.Statement .halt := fun _ => rfl
theorem RoundTrip.pushn0 : RoundTrip.Statement .pushn0 := fun _ => rfl
theorem RoundTrip.pushn1 : RoundTrip.Statement .pushn1 := fun _ => rfl
theorem RoundTrip.pushn2 : RoundTrip.Statement .pushn2 := fun _ => rfl
theorem RoundTrip.pushn3 : RoundTrip.Statement .pushn3 := fun _ => rfl
theorem RoundTrip.pushn4 : RoundTrip.Statement .pushn4 := fun _ => rfl
theorem RoundTrip.pushn5 : RoundTrip.Statement .pushn5 := fun _ => rfl
theorem RoundTrip.pushn6 : RoundTrip.Statement .pushn6 := fun _ => rfl
theorem RoundTrip.pushn7 : RoundTrip.Statement .pushn7 := fun _ => rfl
theorem RoundTrip.pushn8 : RoundTrip.Statement .pushn8 := fun _ => rfl
theorem RoundTrip.pushn9 : RoundTrip.Statement .pushn9 := fun _ => rfl
theorem RoundTrip.pushn10 : RoundTrip.Statement .pushn10 := fun _ => rfl
theorem RoundTrip.pushn11 : RoundTrip.Statement .pushn11 := fun _ => rfl
theorem RoundTrip.pushn12 : RoundTrip.Statement .pushn12 := fun _ => rfl
theorem RoundTrip.pushn13 : RoundTrip.Statement .pushn13 := fun _ => rfl
theorem RoundTrip.pushn14 : RoundTrip.Statement .pushn14 := fun _ => rfl
theorem RoundTrip.pushn15 : RoundTrip.Statement .pushn15 := fun _ => rfl
theorem RoundTrip.comb : RoundTrip.Statement .comb := fun _ => rfl
theorem RoundTrip.indec : RoundTrip.Statement .indec := fun _ => rfl
theorem RoundTrip.outdec : RoundTrip.Statement .outdec := fun _ => rfl
theorem RoundTrip.inbyte : RoundTrip.Statement .inbyte := fun _ => rfl
theorem RoundTrip.outbyte : RoundTrip.Statement .outbyte := fun _ => rfl
theorem RoundTrip.dump : RoundTrip.Statement .dump := fun _ => rfl
theorem RoundTrip.swap : RoundTrip.Statement .swap := fun _ => rfl
theorem RoundTrip.dup : RoundTrip.Statement .dup := fun _ => rfl
theorem RoundTrip.drop : RoundTrip.Statement .drop := fun _ => rfl
theorem RoundTrip.add : RoundTrip.Statement .add := fun _ => rfl
theorem RoundTrip.sub : RoundTrip.Statement .sub := fun _ => rfl
theorem RoundTrip.mul : RoundTrip.Statement .mul := fun _ => rfl
theorem RoundTrip.div : RoundTrip.Statement .div := fun _ => rfl
theorem RoundTrip.rem : RoundTrip.Statement .rem := fun _ => rfl
theorem RoundTrip.pow : RoundTrip.Statement .pow := fun _ => rfl
theorem RoundTrip.lnot : RoundTrip.Statement .lnot := fun _ => rfl
theorem RoundTrip.eq : RoundTrip.Statement .eq := fun _ => rfl
theorem RoundTrip.lt : RoundTrip.Statement .lt := fun _ => rfl
theorem RoundTrip.gt : RoundTrip.Statement .gt := fun _ => rfl
theorem RoundTrip.not : RoundTrip.Statement .not := fun _ => rfl
theorem RoundTrip.or : RoundTrip.Statement .or := fun _ => rfl
theorem RoundTrip.and : RoundTrip.Statement .and := fun _ => rfl
theorem RoundTrip.xor : RoundTrip.Statement .xor := fun _ => rfl
theorem RoundTrip.jmp : RoundTrip.Statement .jmp := fun _ => rfl
theorem RoundTrip.jnz : RoundTrip.Statement .jnz := fun _ => rfl
theorem RoundTrip.load : RoundTrip.Statement .load := fun _ => rfl
theorem RoundTrip.store : RoundTrip.Statement .store := fun _ => rfl

/-- No byte of R63's list is one of the opcodes. -/
theorem decode_unrecognizedByte : ∀ op : Byte, unrecognizedByte op = true → decode op = .unrecognized op := by
  decide

theorem RoundTrip.unrecognized (op : Byte) : RoundTrip.Statement (.unrecognized op) :=
  fun h => decode_unrecognizedByte op h

end Sys2Proof.Laws
end

