-- ==== Sys2Proof/Laws/Text.lean ====
section
/-! SUPPORT. What trimming does: the longest white space run is taken off each end, ASCII white space always, a text byte
never. -/

namespace Sys2Proof.Machine

/-- A byte that is not dropped stays. -/
theorem mem_dropWhile_of_mem {p : Byte → Bool} {l : List Byte} {b : Byte} (here : b ∈ l) (kept : p b = false) :
    b ∈ l.dropWhile p := by
  induction l with
  | nil => exact here
  | cons c rest ih =>
    rw [List.dropWhile_cons]
    split
    · next drop =>
      rcases List.mem_cons.mp here with rfl | here
      · simp [kept] at drop
      · exact ih here
    · exact here

/-- A text byte is no ASCII white space. -/
theorem not_isAsciiSpace_of_isText {b : Byte} (text : isText b = true) : isAsciiSpace b = false := by
  simp only [isText, isDigit, isAsciiSpace, Bool.or_eq_true, Bool.and_eq_true, decide_eq_true_eq, beq_iff_eq] at *
  rcases text with (((((text | rfl) | rfl) | rfl) | rfl) | rfl) | rfl
  · simp only [Bool.or_eq_false_iff, Bool.and_eq_false_iff, decide_eq_false_iff_not, beq_eq_false_iff_ne]
    omega
  all_goals decide

/-- ASCII white space is white space. -/
theorem isBlank_of_ascii {r : List Byte} (ascii : r.all isAsciiSpace = true) : isBlank r = true := by
  have empty : r.dropWhile isAsciiSpace = [] := by
    rw [List.dropWhile_eq_nil_iff]; simpa using ascii
  simp [isBlank, trimAscii, empty]

/-- A run with a text byte is no white space. -/
theorem isBlank_of_text {r : List Byte} {b : Byte} (here : b ∈ r) (text : isText b = true) : isBlank r = false := by
  have kept := not_isAsciiSpace_of_isText text
  have inside : b ∈ trimAscii r := by
    rw [trimAscii, List.mem_reverse]
    exact mem_dropWhile_of_mem (List.mem_reverse.mpr (mem_dropWhile_of_mem here kept)) kept
  have some : (trimAscii r).any isText = true := List.any_eq_true.mpr ⟨b, inside, text⟩
  have full : (trimAscii r).isEmpty = false := by
    cases h : trimAscii r with
    | nil => rw [h] at inside; cases inside
    | cons => rfl
  simp [isBlank, some, full]

/-- ASCII white space in front of a run changes nothing. -/
theorem isBlank_cons_ascii {r : List Byte} {c : Byte} (ascii : isAsciiSpace c = true) : isBlank (c :: r) = isBlank r := by
  simp [isBlank, trimAscii, ascii]

/-- ASCII white space behind a run changes nothing. -/
theorem isBlank_append_ascii {r : List Byte} {c : Byte} (ascii : isAsciiSpace c = true) :
    isBlank (r ++ [c]) = isBlank r := by
  have same : trimAscii (r ++ [c]) = trimAscii r := by
    rw [trimAscii, trimAscii, List.dropWhile_append]
    split
    · next h => rw [List.isEmpty_iff.mp h]; simp [ascii]
    · simp [ascii]
  simp [isBlank, same]

/-- The white space taken off the front: the longest of at most `n` bytes. -/
theorem dropBlankPrefix_spec (n : Nat) (line : List Byte) :
    ∃ k, k ≤ n ∧ dropBlankPrefix n line = line.drop k ∧ isBlank (line.take k) = true ∧
      ∀ m, k < m → m ≤ n → isBlank (line.take m) = false := by
  induction n with
  | zero => exact ⟨0, by omega, by simp [dropBlankPrefix], by simp [isBlank, trimAscii], fun m _ _ => by omega⟩
  | succ n ih =>
    rw [dropBlankPrefix]
    split
    · next h => exact ⟨n + 1, by omega, rfl, h, fun m _ _ => by omega⟩
    · next h =>
      obtain ⟨k, le, shape, blank, longest⟩ := ih
      refine ⟨k, by omega, shape, blank, fun m lo hi => ?_⟩
      rcases Nat.lt_or_ge n m with h' | h'
      · rw [show m = n + 1 by omega]; simpa using h
      · exact longest m lo h'

/-- The white space taken off the back: the longest that begins at `k` or behind it. -/
theorem dropBlankSuffix_spec (n k : Nat) (line : List Byte) (all : k + n = line.length) :
    ∃ j, k ≤ j ∧ j ≤ line.length ∧ dropBlankSuffix n k line = line.take j ∧ isBlank (line.drop j) = true ∧
      ∀ m, k ≤ m → m < j → isBlank (line.drop m) = false := by
  induction n generalizing k with
  | zero =>
    refine ⟨line.length, by omega, by omega, by simp [dropBlankSuffix], by simp [isBlank, trimAscii], fun m _ _ => by omega⟩
  | succ n ih =>
    rw [dropBlankSuffix]
    split
    · next h => exact ⟨k, by omega, by omega, rfl, h, fun m _ _ => by omega⟩
    · next h =>
      obtain ⟨j, ge, le, shape, blank, longest⟩ := ih (k + 1) (by omega)
      refine ⟨j, by omega, le, shape, blank, fun m lo hi => ?_⟩
      rcases Nat.eq_or_lt_of_le lo with rfl | lo
      · simpa using h
      · exact longest m lo hi

/-- What trimming answers: a line is a white space run, the text, and a white space run, and neither run can be made
longer. -/
theorem trim_spec (line : List Byte) :
    ∃ k front j, k ≤ line.length ∧ front = line.drop k ∧ j ≤ front.length ∧ trim line = front.take j ∧
      isBlank (line.take k) = true ∧ isBlank (front.drop j) = true ∧
      (∀ m, k < m → m ≤ line.length → isBlank (line.take m) = false) ∧
      ∀ m, m < j → isBlank (front.drop m) = false := by
  obtain ⟨k, le, shape, blank, longest⟩ := dropBlankPrefix_spec line.length line
  obtain ⟨j, -, le', shape', blank', longest'⟩ := dropBlankSuffix_spec (line.drop k).length 0 (line.drop k) (by omega)
  refine ⟨k, _, j, le, rfl, le', ?_, blank, blank', longest, fun m h => longest' m (by omega) h⟩
  rw [trim, shape]
  exact shape'

/-- Text between white space is what trimming answers. -/
theorem trim_padded {before t after : List Byte} (front : isBlank before = true) (back : isBlank after = true)
    (full : t ≠ []) (text : t.all isText = true) : trim (before ++ t ++ after) = t := by
  have bytes : ∀ b ∈ t, isText b = true := List.all_eq_true.mp text
  obtain ⟨k, mid, j, kLe, rfl, jLe, shape, blankFront, blankBack, longest, longest'⟩ := trim_spec (before ++ t ++ after)
  have size : 0 < t.length := List.length_pos_iff.mpr full
  have kEq : k = before.length := by
    rcases Nat.lt_trichotomy k before.length with h | h | h
    · have no := longest before.length h (by simp)
      simp [front] at no
    · exact h
    · have here : t[0] ∈ (before ++ t ++ after).take k := by
        rw [List.append_assoc, List.take_append, List.mem_append]
        refine .inr ?_
        obtain ⟨m, hm⟩ : ∃ m, k - before.length = m + 1 := ⟨k - before.length - 1, by omega⟩
        rw [hm]
        cases t with
        | nil => simp at size
        | cons c rest => simp
      have no := isBlank_of_text here (bytes _ (List.getElem_mem size))
      exact absurd (no.symm.trans blankFront) (by decide)
  subst kEq
  have rest : (before ++ t ++ after).drop before.length = t ++ after := by simp
  rw [rest] at shape jLe blankBack longest'
  have jEq : j = t.length := by
    rcases Nat.lt_trichotomy j t.length with h | h | h
    · have here : t[j] ∈ (t ++ after).drop j := by
        rw [List.drop_append_of_le_length (by omega), List.mem_append]
        exact .inl (List.mem_drop_iff_getElem.mpr ⟨0, by omega, by simp⟩)
      have no := isBlank_of_text here (bytes _ (List.getElem_mem h))
      exact absurd (no.symm.trans blankBack) (by decide)
    · exact h
    · have no := longest' t.length h
      simp [back] at no
  rw [shape, jEq]
  simp

end Sys2Proof.Machine
end

