-- ==== Sys2Proof/Tests/Slice0.lean ====
section
/-! SUPPORT. The model's own tests. A decode test is a word written out bit by bit from the character of R62's table; a
step test is one step, with the expected values of spec/95_test_vectors.md (the vector is named); a witness meets the
hypotheses of the obligation it names. -/

namespace Sys2Proof.Tests

open Sys2Proof.Machine

/-- A machine as after reset, but for `pc`, `sp` and the bytes placed in memory. -/
def cpu (pc sp : Byte) (bytes : List Host.Cell) : State :=
  { State.reset with pc := pc, sp := sp, mem := bytes.foldl (fun m c => m.write c.1 c.2) [] }

/-- The same machine with input: bytes that have arrived, and whether the stream has ended behind them. -/
def fed (bytes : List Byte) (ended : Bool) (s : State) : State :=
  { s with input := bytes.map .byte, inEnded := ended }

/-- A view of the next state of an outcome, if there is one. -/
def seen {α : Type} (view : State → α) : Host.Outcome State Fault Refusal → Option α
  | .next t => some (view t)
  | _ => none

/-- The registers and the memory. -/
def registers (t : State) : RunState × Byte × Byte × Memory :=
  (t.rs, t.pc, t.sp, t.mem)

/-- The run state, `pc` and `sp`. -/
def short (t : State) : RunState × Byte × Byte :=
  (t.rs, t.pc, t.sp)

/-- The run state, `pc`, `sp`, the output bytes and the bytes consumed. -/
def io (t : State) : RunState × Byte × Byte × List Byte × Nat :=
  (t.rs, t.pc, t.sp, outputBytes t, t.inPos)

/-- One ALU step at address 0 on `sp=0xFD [b, a]`, seen as `rs`, `pc`, `sp` and the cell 0xFF. -/
def alu (op a b : Byte) : Option (RunState × Byte × Byte × Byte) :=
  seen (fun t => (t.rs, t.pc, t.sp, readMem t 0xFF)) (step (cpu 0 0xFD [(0, op), (0xFF, a), (0xFE, b)]))

/-- One unary ALU step at address 0 on `sp=0xFE [a]`. -/
def alu1 (op a : Byte) : Option (RunState × Byte × Byte × Byte) :=
  seen (fun t => (t.rs, t.pc, t.sp, readMem t 0xFF)) (step (cpu 0 0xFE [(0, op), (0xFF, a)]))

/-- The line `42` with its LF. -/
def line42 : List Byte := [0x34, 0x32, 0x0A]

/-! ### WellFormed: an ill-formed term of each kind is refused -/

theorem test_wf_refuses_recognized_bytes :
    (Instr.unrecognized 0x78).wellFormed = false ∧ (Instr.unrecognized 0x21).wellFormed = false ∧
    (Instr.unrecognized 0x7E).wellFormed = false ∧ (Instr.unrecognized 0x30).wellFormed = false := by decide

theorem test_wf_refuses_all_recognized_bytes :
    ∀ row ∈ opcodeMap, (Instr.unrecognized row.1).wellFormed = false ∧ row.2.wellFormed = true := by decide

theorem test_wf_accepts_the_edges_of_the_ranges :
    ∀ op ∈ ([0x00, 0x20, 0x23, 0x24, 0x2C, 0x3B, 0x3F, 0x41, 0x57, 0x59, 0x5D, 0x5F, 0x60, 0x68, 0x6B, 0x6D, 0x6E, 0x70,
      0x72, 0x74, 0x77, 0x79, 0x7B, 0x7D, 0x7F, 0xFF] : List Byte), (Instr.unrecognized op).wellFormed = true :=
  by decide

/-! ### Decode: every constructor's word, bit by bit -/

theorem test_decode_halt_literals :
    decode 0b01111000 = .halt ∧ decode 0b00110000 = .pushn0 ∧ decode 0b00110001 = .pushn1 ∧
    decode 0b00110010 = .pushn2 ∧ decode 0b00110011 = .pushn3 ∧ decode 0b00110100 = .pushn4 ∧
    decode 0b00110101 = .pushn5 ∧ decode 0b00110110 = .pushn6 ∧ decode 0b00110111 = .pushn7 := by decide

theorem test_decode_literals :
    decode 0b00111000 = .pushn8 ∧ decode 0b00111001 = .pushn9 ∧ decode 0b01100001 = .pushn10 ∧
    decode 0b01100010 = .pushn11 ∧ decode 0b01100011 = .pushn12 ∧ decode 0b01100100 = .pushn13 ∧
    decode 0b01100101 = .pushn14 ∧ decode 0b01100110 = .pushn15 ∧ decode 0b00101110 = .comb := by decide

theorem test_decode_io :
    decode 0b01101001 = .indec ∧ decode 0b01101111 = .outdec ∧ decode 0b00111010 = .inbyte ∧
    decode 0b00100111 = .outbyte ∧ decode 0b00100010 = .dump := by decide

theorem test_decode_stack :
    decode 0b01000000 = .swap ∧ decode 0b00101000 = .dup ∧ decode 0b00101001 = .drop := by decide

theorem test_decode_arithmetic :
    decode 0b00101011 = .add ∧ decode 0b00101101 = .sub ∧ decode 0b00101010 = .mul ∧ decode 0b00101111 = .div ∧
    decode 0b00100101 = .rem ∧ decode 0b01011110 = .pow ∧ decode 0b00100001 = .lnot := by decide

theorem test_decode_comparisons_bitwise :
    decode 0b00111101 = .eq ∧ decode 0b00111100 = .lt ∧ decode 0b00111110 = .gt ∧ decode 0b01111110 = .not ∧
    decode 0b01111100 = .or ∧ decode 0b00100110 = .and ∧ decode 0b01011000 = .xor := by decide

theorem test_decode_control_memory :
    decode 0b01100111 = .jmp ∧ decode 0b01101010 = .jnz ∧ decode 0b01101100 = .load ∧
    decode 0b01110011 = .store := by decide

theorem test_decode_unrecognized :
    decode 0b00000000 = .unrecognized 0b00000000 ∧ decode 0b01000001 = .unrecognized 0b01000001 ∧
    decode 0b00001010 = .unrecognized 0b00001010 ∧ decode 0b11111111 = .unrecognized 0b11111111 := by decide

theorem test_table_word_reads_the_low_byte :
    decodeTableWord 8 0x2B = some .add ∧ decodeTableWord 8 0x41 = some (.unrecognized 0x41) ∧
    decodeTableWord 8 0x178 = some .halt ∧ decodeBytes [] = .error .noByte := ⟨by decide, by decide, by decide, rfl⟩

theorem test_placed_word_runs_first :
    seen registers (step (State.reset.withFetchWord 8 0x35)) = some (.running, 1, 0xFE, [(0, 0x35), (0xFF, 5)]) :=
  by decide

/-! ### Halt, literals, combine -/

/-- V-H1. -/
theorem test_halt : seen registers (step (cpu 0x10 0xFF [(0x10, 0x78)])) = some (.halted, 0x10, 0xFF, [(0x10, 0x78)]) := by
  decide

/-- V-H2. -/
theorem test_unrecognized_zero : seen registers (step (cpu 0 0xFF [])) = some (.halted, 0, 0xFF, []) := by decide

/-- V-H5. -/
theorem test_unrecognized_ff : seen short (step (cpu 0 0xFF [(0, 0xFF)])) = some (.halted, 0, 0xFF) := by decide

/-- V-H6. -/
theorem test_step_after_halt :
    seen short (step { cpu 4 0xFF [(4, 0x31)] with rs := .halted }) = some (.halted, 4, 0xFF) := by decide

/-- V-L1. -/
theorem test_pushn0 :
    seen registers (step (cpu 0x00 0xFF [(0x00, 0x30)])) =
      some (.running, 0x01, 0xFE, [(0x00, 0x30)]) := by decide

/-- V-L6. -/
theorem test_pushn1 :
    seen registers (step (cpu 0xFF 0x80 [(0xFF, 0x31)])) =
      some (.running, 0x00, 0x7F, [(0x80, 0x01), (0xFF, 0x31)]) := by decide

theorem test_pushn2 :
    seen registers (step (cpu 0x20 0x90 [(0x20, 0x32)])) =
      some (.running, 0x21, 0x8F, [(0x20, 0x32), (0x90, 0x02)]) := by decide

theorem test_pushn3 :
    seen registers (step (cpu 0x20 0x90 [(0x20, 0x33)])) =
      some (.running, 0x21, 0x8F, [(0x20, 0x33), (0x90, 0x03)]) := by decide

theorem test_pushn4 :
    seen registers (step (cpu 0x20 0x90 [(0x20, 0x34)])) =
      some (.running, 0x21, 0x8F, [(0x20, 0x34), (0x90, 0x04)]) := by decide

theorem test_pushn5 :
    seen registers (step (cpu 0x20 0x90 [(0x20, 0x35)])) =
      some (.running, 0x21, 0x8F, [(0x20, 0x35), (0x90, 0x05)]) := by decide

theorem test_pushn6 :
    seen registers (step (cpu 0x20 0x90 [(0x20, 0x36)])) =
      some (.running, 0x21, 0x8F, [(0x20, 0x36), (0x90, 0x06)]) := by decide

/-- V-L5. -/
theorem test_pushn7 :
    seen registers (step (cpu 0x05 0x00 [(0x05, 0x37)])) =
      some (.running, 0x06, 0xFF, [(0x00, 0x07), (0x05, 0x37)]) := by decide

theorem test_pushn8 :
    seen registers (step (cpu 0x20 0x90 [(0x20, 0x38)])) =
      some (.running, 0x21, 0x8F, [(0x20, 0x38), (0x90, 0x08)]) := by decide

/-- V-L2. -/
theorem test_pushn9 :
    seen registers (step (cpu 0x00 0xFF [(0x00, 0x39)])) =
      some (.running, 0x01, 0xFE, [(0x00, 0x39), (0xFF, 0x09)]) := by decide

/-- V-L3. -/
theorem test_pushn10 :
    seen registers (step (cpu 0x00 0xFF [(0x00, 0x61)])) =
      some (.running, 0x01, 0xFE, [(0x00, 0x61), (0xFF, 0x0A)]) := by decide

theorem test_pushn11 :
    seen registers (step (cpu 0x20 0x90 [(0x20, 0x62)])) =
      some (.running, 0x21, 0x8F, [(0x20, 0x62), (0x90, 0x0B)]) := by decide

theorem test_pushn12 :
    seen registers (step (cpu 0x20 0x90 [(0x20, 0x63)])) =
      some (.running, 0x21, 0x8F, [(0x20, 0x63), (0x90, 0x0C)]) := by decide

theorem test_pushn13 :
    seen registers (step (cpu 0x20 0x90 [(0x20, 0x64)])) =
      some (.running, 0x21, 0x8F, [(0x20, 0x64), (0x90, 0x0D)]) := by decide

theorem test_pushn14 :
    seen registers (step (cpu 0x20 0x90 [(0x20, 0x65)])) =
      some (.running, 0x21, 0x8F, [(0x20, 0x65), (0x90, 0x0E)]) := by decide

/-- V-L4. -/
theorem test_pushn15 :
    seen registers (step (cpu 0x00 0xFF [(0x00, 0x66)])) =
      some (.running, 0x01, 0xFE, [(0x00, 0x66), (0xFF, 0x0F)]) := by decide

/-- V-C2. -/
theorem test_comb_masks_nothing : alu 0x2E 0x1F 0x03 = some (.running, 1, 0xFE, 0xF3) := by decide

/-- V-C3. -/
theorem test_comb_low_operand_unmasked : alu 0x2E 0x03 0x35 = some (.running, 1, 0xFE, 0x35) := by decide

/-! ### The ALU -/

/-- V-A1. -/
theorem test_add : alu 0x2B 250 10 = some (.running, 1, 0xFE, 4) := by decide

/-- V-A3. -/
theorem test_add_edge : alu 0x2B 255 255 = some (.running, 1, 0xFE, 254) := by decide

/-- V-A4. -/
theorem test_sub : alu 0x2D 5 3 = some (.running, 1, 0xFE, 2) := by decide

/-- V-A5. -/
theorem test_sub_edge : alu 0x2D 3 5 = some (.running, 1, 0xFE, 254) := by decide

/-- V-A7. -/
theorem test_mul : alu 0x2A 12 13 = some (.running, 1, 0xFE, 156) := by decide

/-- V-A9. -/
theorem test_mul_edge : alu 0x2A 255 255 = some (.running, 1, 0xFE, 1) := by decide

/-- V-A11. -/
theorem test_div : alu 0x2F 200 7 = some (.running, 1, 0xFE, 28) := by decide

/-- V-A16. -/
theorem test_rem : alu 0x25 200 7 = some (.running, 1, 0xFE, 4) := by decide

/-- V-A24. -/
theorem test_pow : alu 0x5E 3 6 = some (.running, 1, 0xFE, 217) := by decide

/-- V-A25. -/
theorem test_pow_edge : alu 0x5E 0 0 = some (.running, 1, 0xFE, 1) := by decide

/-- V-A32. -/
theorem test_eq : alu 0x3D 7 7 = some (.running, 1, 0xFE, 1) := by decide

/-- V-A33. -/
theorem test_eq_edge : alu 0x3D 7 8 = some (.running, 1, 0xFE, 0) := by decide

/-- V-A34. -/
theorem test_lt : alu 0x3C 3 5 = some (.running, 1, 0xFE, 1) := by decide

/-- V-A37. -/
theorem test_lt_edge : alu 0x3C 127 128 = some (.running, 1, 0xFE, 1) := by decide

/-- V-A38. -/
theorem test_gt : alu 0x3E 5 3 = some (.running, 1, 0xFE, 1) := by decide

/-- V-A40. -/
theorem test_gt_edge : alu 0x3E 255 0 = some (.running, 1, 0xFE, 1) := by decide

/-- V-A44. -/
theorem test_or : alu 0x7C 240 15 = some (.running, 1, 0xFE, 255) := by decide

/-- V-A45. -/
theorem test_and : alu 0x26 170 15 = some (.running, 1, 0xFE, 10) := by decide

/-- V-A46. -/
theorem test_xor : alu 0x58 255 15 = some (.running, 1, 0xFE, 240) := by decide

/-- V-A14, with the start of the vectors of section 2.4. -/
theorem test_div_by_zero : alu 0x2F 5 0 = some (.faultArith, 0, 0xFD, 5) := by decide

/-- V-A19, with the start of the vectors of section 2.4. -/
theorem test_rem_by_zero : alu 0x25 5 0 = some (.faultArith, 0, 0xFD, 5) := by decide

/-- V-A29. -/
theorem test_lnot_zero : alu1 0x21 0 = some (.running, 1, 0xFE, 1) := by decide

/-- V-A31. -/
theorem test_lnot_nonzero : alu1 0x21 255 = some (.running, 1, 0xFE, 0) := by decide

/-- V-A41. -/
theorem test_not : alu1 0x7E 15 = some (.running, 1, 0xFE, 240) := by decide

/-- V-A42. -/
theorem test_not_zero : alu1 0x7E 0 = some (.running, 1, 0xFE, 255) := by decide

/-! ### Stack, control, load and store -/

/-- V-S1. -/
theorem test_swap :
    seen registers (step (cpu 0 0xFD [(0, 0x40), (0xFE, 5), (0xFF, 3)])) =
      some (.running, 1, 0xFD, [(0, 0x40), (0xFE, 3), (0xFF, 5)]) := by decide

/-- V-S3, first step: the empty stack lies over the code. -/
theorem test_swap_rewrites_code :
    seen registers (step (cpu 0 0xFF [(0, 0x40)])) = some (.running, 1, 0xFF, [(1, 0x40)]) := by decide

/-- V-S4. -/
theorem test_dup :
    seen registers (step (cpu 0 0xFE [(0, 0x28), (0xFF, 7)])) =
      some (.running, 1, 0xFD, [(0, 0x28), (0xFE, 7), (0xFF, 7)]) := by decide

/-- V-S5, first step. -/
theorem test_dup_empty :
    seen registers (step (cpu 0 0xFF [(0, 0x28)])) = some (.running, 1, 0xFE, [(0, 0x28), (0xFF, 0x28)]) := by decide

/-- V-S6. -/
theorem test_drop :
    seen registers (step (cpu 0 0xFD [(0, 0x29), (0xFE, 5), (0xFF, 3)])) =
      some (.running, 1, 0xFE, [(0, 0x29), (0xFE, 5), (0xFF, 3)]) := by decide

/-- V-S7. -/
theorem test_drop_wraps : seen short (step (cpu 0 0xFF [(0, 0x29)])) = some (.running, 1, 0x00) := by decide

/-- V-J2. -/
theorem test_jmp_to_itself :
    seen short (step (cpu 0x20 0xFE [(0x20, 0x67), (0xFF, 0x20)])) = some (.running, 0x20, 0xFF) := by decide

/-- V-J5. -/
theorem test_jnz_not_taken :
    seen short (step (cpu 0xFF 0x7D [(0xFF, 0x6A), (0x7E, 0x40), (0x7F, 0)])) = some (.running, 0x00, 0x7F) := by decide

/-- V-J6. -/
theorem test_jnz_taken :
    seen short (step (cpu 0x30 0x7D [(0x30, 0x6A), (0x7E, 0x30), (0x7F, 0xFF)])) = some (.running, 0x30, 0x7F) :=
  by decide

/-- V-M1, the step of the `l`. -/
theorem test_load :
    seen registers (step (cpu 1 0xFE [(0, 0x30), (1, 0x6C)])) =
      some (.running, 2, 0xFE, [(0, 0x30), (1, 0x6C), (0xFF, 0x30)]) := by decide

/-- V-M2. -/
theorem test_load_of_the_popped_cell :
    seen registers (step (cpu 0 0xFE [(0, 0x6C), (0xFF, 0xFF)])) =
      some (.running, 1, 0xFE, [(0, 0x6C), (0xFF, 0xFF)]) := by decide

/-- V-M3. -/
theorem test_store :
    seen registers (step (cpu 0 0xFD [(0, 0x73), (0xFE, 0x09), (0xFF, 0x6F)])) =
      some (.running, 1, 0xFF, [(0, 0x73), (9, 0x6F), (0xFE, 0x09), (0xFF, 0x6F)]) := by decide

/-- V-M4. -/
theorem test_store_to_a_popped_cell :
    seen registers (step (cpu 0 0xFD [(0, 0x73), (0xFE, 0xFE), (0xFF, 0x77)])) =
      some (.running, 1, 0xFF, [(0, 0x73), (0xFE, 0x77), (0xFF, 0x77)]) := by decide

/-! ### The ports -/

/-- V-IO1, the step of the `i`. -/
theorem test_indec :
    seen io (step (fed line42 false (cpu 0 0xFF [(0, 0x69)]))) = some (.running, 1, 0xFE, [0x3E, 0x20], 3) := by decide

/-- V-IO3: 256 does not fit. -/
theorem test_indec_too_large :
    seen io (step (fed [0x32, 0x35, 0x36, 0x0A] false (cpu 0 0xFF [(0, 0x69)]))) =
      some (.faultIO, 0, 0xFF, [0x3E, 0x20], 4) := by decide

/-- The step of the `o` of V-IO15: 255 in decimal. -/
theorem test_outdec :
    seen io (step (cpu 4 0xFE [(4, 0x6F), (0xFF, 0xFF)])) =
      some (.running, 5, 0xFF, [0x32, 0x35, 0x35, 0x0A], 0) := by decide

/-- V-IO18, the prefix of one byte. -/
theorem test_outdec_fails :
    seen io (step { cpu 1 0xFE [(1, 0x6F), (0xFF, 1)] with outReplies := [.fails 1] }) =
      some (.faultIO, 1, 0xFE, [0x31], 0) := by decide

/-- V-IO11, the step of the `:`. -/
theorem test_inbyte :
    seen io (step (fed [0x41] true (cpu 0 0xFF [(0, 0x3A)]))) = some (.running, 1, 0xFE, [], 1) := by decide

/-- V-IO12. -/
theorem test_inbyte_at_end :
    seen io (step (fed [] true (cpu 0 0xFF [(0, 0x3A)]))) = some (.faultIO, 0, 0xFF, [], 0) := by decide

/-- V-IO14, the first `'`. -/
theorem test_outbyte :
    seen io (step (cpu 3 0xFE [(3, 0x27), (0xFF, 0x48)])) = some (.running, 4, 0xFF, [0x48], 0) := by decide

/-- V-IO17: the step of the dump. -/
theorem test_dump : seen short (step (cpu 0 0xFF [(0, 0x22)])) = some (.running, 1, 0xFF) := by decide

/-- V-IO6, the parse. -/
theorem test_parse_trims_and_takes_leading_zeros :
    parseLine [0x20, 0x30, 0x30, 0x37, 0x20, 0x0D, 0x0A] = some 7 := by decide

/-- V-IO4 and V-IO8. -/
theorem test_parse_refuses : parseLine [0x0A] = none ∧ parseLine [0x2D, 0x31, 0x0A] = none := by decide

/-- The other examples of R122 (d): `4 2`, `0x10`, `abc`. -/
theorem test_parse_refuses_text :
    parseLine [0x34, 0x20, 0x32, 0x0A] = none ∧ parseLine [0x30, 0x78, 0x31, 0x30, 0x0A] = none ∧
    parseLine [0x61, 0x62, 0x63, 0x0A] = none := by decide

/-- The default `LOAD_IMAGE` of R402 on `x` with LF, with CR and LF, with CR alone, and on a bare terminator. -/
theorem test_default_image :
    dropTerminator [0x78, 0x0A] = [0x78] ∧ dropTerminator [0x78, 0x0D, 0x0A] = [0x78] ∧
    dropTerminator [0x78, 0x0D] = [0x78, 0x0D] ∧ dropTerminator [0x0D, 0x0A] = [] ∧ dropTerminator [] = [] := by decide

/-! ### Witnesses of the obligations' hypotheses -/

/-- DecodeFollowsTheOpcodeMap: the edges of R63's list. -/
theorem witness_unrecognized_bytes :
    unrecognizedByte 0x00 = true ∧ unrecognizedByte 0xFF = true ∧ unrecognizedByte 0x2C = true ∧ opcodeMap ≠ [] :=
  by decide

/-- DecodeAndEncodeAreInverse: a well-formed instruction with a field, and one without. -/
theorem witness_well_formed : (Instr.unrecognized 0x7F).wellFormed = true ∧ Instr.halt.wellFormed = true := by decide

/-- LoadedProgramIsFetchedBack, LaunchLoadsTheImage: the longest program, the empty one, and an image too long. -/
theorem witness_program :
    (∀ i ∈ List.replicate 256 Instr.store, i.wellFormed = true) ∧ (List.replicate 256 Instr.store).length ≤ 256 ∧
    (∀ i ∈ ([] : List Instr), i.wellFormed = true) ∧ 256 < (List.replicate 257 (0x30 : Byte)).length :=
  ⟨fun _ h => List.eq_of_mem_replicate h ▸ rfl, List.length_replicate.le, fun _ h => absurd h List.not_mem_nil,
    by rw [List.length_replicate]; omega⟩

/-- StepRunsTheDecodedInstruction. -/
theorem witness_step :
    let s := cpu 0xFF 0xFD [(0xFF, 0x73)]
    s.rs = .running ∧ Instr.store.wellFormed = true ∧ readMem s s.pc = encode .store := by decide

/-- TerminalStatesStayPut: each of the three terminal run states. -/
theorem witness_terminal :
    ∀ r ∈ [RunState.halted, .faultIO, .faultArith], { cpu 0 0xFF [(0, 0x78)] with rs := r }.rs ≠ .running := by decide

/-- OnlyAWaitingReadHasNoSuccessor: both of the states without a successor, and one with. -/
theorem witness_no_successor :
    seen short (step { cpu 0 0xFF [(0, 0x3A)] with wait := true }) = none ∧
    seen short (step { cpu 0 0xFF [(0, 0x69)] with wait := true }) = none ∧
    seen short (step (cpu 0 0xFF [(0, 0x3A)])) = some (.running, 0, 0xFF) := by decide

/-- OnlyInputSurvivesARun: two different machines that left the same input. -/
theorem witness_same_input :
    let old := fed [0x31] false (cpu 0 0xFF [(0, 0x78)])
    let old' := fed [0x31] false (cpu 9 0x10 [(7, 0x22)])
    old.input = old'.input ∧ old.inEnded = old'.inEnded ∧ old ≠ old' := by decide

/-- CanonicalMemoryIsDeterminedByItsCells: canonical memories with entries at the first and the last cell. -/
theorem witness_canonical :
    Memory.wf [(0, 1), (255, 2)] = true ∧ Memory.wf (Memory.write [(0, 1), (9, 3), (255, 2)] 9 0) = true ∧
    (∀ a : Nat, a < 256 → Memory.read [(0, 1), (255, 2)] a = Memory.read (Memory.write [(0, 1), (9, 3), (255, 2)] 9 0) a) := by
  refine ⟨by decide, by decide, fun a _ => ?_⟩
  have same : Memory.write [(0, 1), (9, 3), (255, 2)] 9 0 = [(0, 1), (255, 2)] := by decide
  rw [same]

/-- PushedBytesPopInReverse: a full stack. -/
theorem witness_full_stack : (List.replicate 256 (0xA0 : Byte)).length ≤ 256 ∧ ([] : List Byte).length ≤ 256 :=
  ⟨List.length_replicate.le, Nat.zero_le _⟩

/-- FetchSeesTheStoredByte: V-M5. -/
theorem witness_self_modifying :
    let s := cpu 0x03 0xFD [(3, 0x73), (0xFE, 0x04), (0xFF, 0x78)]
    s.rs = .running ∧ current s = .store ∧ operandB s = s.pc + 1 ∧
    seen short (step s) = some (.running, 0x04, 0xFF) := by decide

/-- CompletedInstructionMovesSpByTheTable. -/
theorem witness_completed :
    let s := cpu 0 0xFD [(0xFE, 1), (0xFF, 2)]
    seen (fun t => (t.rs, t.wait)) (exec .add s) = some (.running, false) ∧
    seen (fun t => (t.rs, t.wait)) (exec .jnz s) = some (.running, false) := by decide

/-- DivisionByANonzeroDivisor, DivisionByZeroTakesCauseArith, StackResultsLandInOneCell: the divisors 1, 255 and 0. -/
theorem witness_divisors :
    operandB (cpu 0 0xFD [(0xFE, 1)]) ≠ 0 ∧ topCell (cpu 0 0xFD [(0xFE, 255)]) ≠ 0 ∧
    operandB (cpu 0 0xFD [(0xFE, 0), (0xFF, 5)]) = 0 := by decide

/-- PowerIsReducedModulo256: the exponent 0, with the base 0. -/
theorem witness_power_zero : operandB (cpu 0 0xFD []) = 0 ∧ operandA (cpu 0 0xFD []) = 0 := by decide

/-- SwapExchangesTheTopTwo: equal operands, V-S2. -/
theorem witness_equal_operands :
    let s := cpu 0 0xFD [(0xFE, 7), (0xFF, 7)]
    operandA s = operandB s := by decide

/-- JumpGoesToThePoppedAddress. -/
theorem witness_jump : (cpu 0x20 0xFE [(0x20, 0x67), (0xFF, 0x20)]).rs = .running := by decide

/-- ConditionalJumpTestsForNonzero: both paths. -/
theorem witness_conditions :
    operandA (cpu 0 0xFD [(0xFF, 0)]) = 0 ∧ operandA (cpu 0 0xFD [(0xFF, 0x80)]) ≠ 0 := by decide

/-- A machine at an `i` whose line is complete, with the outputs answered. -/
def atLine : State := fed line42 false (cpu 0 0xFF [(0, 0x69)])

/-- LineReadFollowsTheStream, IndecPushesTheParsedLine: a line with its LF, and the last line without one. -/
theorem witness_line_ahead :
    lineAhead atLine line42 [] ∧ parseLine line42 = some 42 ∧ atLine.wait = false ∧ repliesOk 2 atLine ∧
    lineAhead (fed [0x35] true atLine) [0x35] [] ∧ parseLine [0x35] = some 5 :=
  ⟨.inl ⟨[0x34, 0x32], by decide, rfl, rfl⟩, by decide, rfl, by simp [repliesOk, atLine, fed, cpu, State.reset],
    .inr ⟨by decide, by decide, rfl, rfl, rfl⟩, by decide⟩

/-- IndecPushesTheParsedLine, of a core that waits. -/
theorem witness_line_ahead_waiting :
    lineAhead { atLine with wait := true } line42 [] ∧ parseLine line42 = some 42 ∧
    { atLine with wait := true }.wait = true :=
  ⟨.inl ⟨[0x34, 0x32], by decide, rfl, rfl⟩, by decide, rfl⟩

/-- The line read fails: after a byte, before any byte, and at the end of the stream. -/
theorem witness_line_fails :
    lineFails { atLine with input := [.byte 0x34, .readError, .byte 0x0A] } 1 [.byte 0x0A] ∧
    lineFails { atLine with input := [.readError] } 0 [] ∧ lineFails (fed [] true atLine) 0 [] :=
  ⟨.inl ⟨[0x34], by decide, rfl, rfl⟩, .inl ⟨[], by decide, rfl, rfl⟩, .inr ⟨rfl, rfl, rfl, rfl⟩⟩

/-- The line read has no answer yet: with part of a line, and with nothing. -/
theorem witness_line_pending : linePending (fed [0x34] false atLine) ∧ linePending (fed [] false atLine) :=
  ⟨⟨[0x34], by decide, rfl, rfl⟩, ⟨[], by decide, rfl, rfl⟩⟩

/-- ParseLineMeetsItsConditions: the values 255 and 256, white space alone, and a minus sign. -/
theorem witness_parse :
    [0x20, 0x09].all isAsciiSpace = true ∧ [0x0A].all isAsciiSpace = true ∧ [0x32, 0x35, 0x35].all isDigit = true ∧
    digitsValue [0x32, 0x35, 0x35] = 255 ∧ digitsValue [0x32, 0x35, 0x36] = 256 ∧ trim [0x20, 0x0A] = [] ∧
    0x2D ∈ trim [0x2D, 0x31, 0x0A] ∧ isDigit 0x2D = false ∧ (0x2D : Byte) ≠ 0x2B ∧
    (trim [0x20, 0x37, 0x0A]).head? = some 0x37 ∧ (trim [0x20, 0x37, 0x0A]).getLast? = some 0x37 ∧
    0x37 ∈ [0x20, 0x37, 0x0A] ∧ isText 0x37 = true := by decide

/-- ProgramLineIsLaunchedAsItsImage: a text whose last byte is no CR, the empty one, and lines without LF. -/
theorem witness_program_line :
    [0x34, 0x78].getLast? ≠ some cr ∧ ([] : List Byte).getLast? ≠ some cr ∧ [0x78, 0x0D].getLast? ≠ some lf ∧
    ([] : List Byte).getLast? ≠ some lf := by decide

/-- DecimalTextIsShortestAndParsesBack: a byte that is 0 and one that is not. -/
theorem witness_decimal : (255 : Byte) ≠ 0 ∧ (0 : Byte) = 0 := by decide

/-- IndecFailsInOrder, ParseFailureIsAnIoFailure: each of the four failures. -/
theorem witness_indec_failures :
    { atLine with outReplies := [.fails 1] }.outReplies = .fails 1 :: [] ∧
    { atLine with outReplies := [.ok, .fails 0, .ok] }.outReplies = .ok :: .fails 0 :: [.ok] ∧
    (repliesOk 2 { atLine with outReplies := [.ok, .ok, .fails 0] } ∧
      lineFails { atLine with outReplies := [.ok, .ok, .fails 0], input := [.readError] } 0 []) ∧
    (repliesOk 2 (fed [0x0A] false atLine) ∧ lineAhead (fed [0x0A] false atLine) [0x0A] [] ∧
      parseLine [0x0A] = none ∧ (fed [0x0A] false atLine).wait = false) :=
  ⟨rfl, rfl, ⟨by simp [repliesOk], .inl ⟨[], by decide, rfl, rfl⟩⟩,
    by simp [repliesOk, atLine, fed, cpu, State.reset], .inl ⟨[], by decide, rfl, rfl⟩, by decide, rfl⟩

/-- ParseFailureIsAnIoFailure: both machines. -/
theorem witness_parse_failure :
    let s := fed [0x0A] false atLine
    let u := fed [] true atLine
    (repliesOk 2 s ∧ lineAhead s [0x0A] [] ∧ parseLine [0x0A] = none) ∧ repliesOk 2 u ∧ lineFails u 0 [] :=
  ⟨⟨by simp [repliesOk, atLine, fed, cpu, State.reset], .inl ⟨[], by decide, rfl, rfl⟩, by decide⟩,
    by simp [repliesOk, atLine, fed, cpu, State.reset], .inr ⟨rfl, rfl, rfl, rfl⟩⟩

/-- InbytePushesTheNextByte, UnansweredReadWaits: the four states of the stream, with and without the wait. -/
theorem witness_inbyte :
    (fed [0xFF] false atLine).input = .byte 0xFF :: [] ∧
    { atLine with input := [.readError] }.input = .readError :: [] ∧
    (fed [] true atLine).input = [] ∧ (fed [] true atLine).inEnded = true ∧ (fed [] false atLine).input = [] ∧
    (fed [] false atLine).inEnded = false ∧ (fed [] false atLine).wait = false ∧
    { fed [] false atLine with wait := true }.wait = true ∧
    seen (fun t => t.wait) (exec .inbyte (fed [] false atLine)) = some true := by decide

/-- UnansweredReadWaits, at `i`. -/
theorem witness_indec_waits :
    let s := fed [0x34] false atLine
    linePending s ∧ s.wait = false ∧ repliesOk 2 s ∧ linePending { s with wait := true } ∧
    { s with wait := true }.wait = true :=
  ⟨⟨[0x34], by decide, rfl, rfl⟩, rfl, by simp [repliesOk, atLine, fed, cpu, State.reset], ⟨[0x34], by decide, rfl, rfl⟩, rfl⟩

/-- DelayedAnswerMakesNoDifference: `:` and the byte that arrives later. -/
theorem witness_delayed_byte :
    ∃ waiting done : State, (cpu 0 0xFF [(0, 0x3A)]).wait = false ∧ step (cpu 0 0xFF [(0, 0x3A)]) = .next waiting ∧
      waiting.wait = true ∧ step (supply [.byte 0x41] false (cpu 0 0xFF [(0, 0x3A)])) = .next done ∧
      done.wait = false :=
  ⟨_, _, rfl, rfl, rfl, rfl, rfl⟩

/-- DelayedAnswerMakesNoDifference: `i` with part of its line, and the rest of it later. -/
theorem witness_delayed_line :
    let s := fed [0x34] false atLine
    seen (fun t => t.wait) (step s) = some true ∧
    seen (fun t => (t.wait, t.rs, readMem t 0xFF)) (step (supply [.byte 0x32, .byte 0x0A] true s)) =
      some (false, .running, 42) := by decide

/-- OutdecWritesADecimalLine, OutbyteWritesTheRawByte, DumpWritesTheRendering: the replies `ok`, given and by default. -/
theorem witness_reply_ok : repliesOk 1 atLine ∧ repliesOk 1 { atLine with outReplies := [.ok, .fails 0] } :=
  ⟨by simp [repliesOk, atLine, fed, cpu, State.reset], by simp [repliesOk]⟩

/-- FailedWriteIsAPreciseIoFault, OutbyteWritesTheRawByte: a failing reply, with nothing delivered and with all of it. -/
theorem witness_reply_fails :
    { atLine with outReplies := [.fails 0] }.outReplies = .fails 0 :: [] ∧
    { atLine with outReplies := [.fails 9, .ok] }.outReplies = .fails 9 :: [.ok] ∧
    ((Instr.outbyte, [topCell atLine]) = (.outdec, dec (topCell atLine) ++ [0x0A]) ∨
      (Instr.outbyte, [topCell atLine]) = (.outbyte, [topCell atLine])) := ⟨rfl, rfl, .inr rfl⟩

/-- A machine at a `/` whose divisor is 0: `50/o` before its third step. -/
def atDivision : State := cpu 2 0xFD [(0, 0x35), (1, 0x30), (2, 0x2F), (3, 0x6F), (0xFF, 5)]

/-- RunStateChangesOnlyAsTabled, FaultsArePrecise, FaultEntryStopsForGood: a step for each run state. -/
theorem witness_run_states :
    atDivision.rs = .running ∧ seen short (step atDivision) = some (.faultArith, 2, 0xFD) ∧
    FaultCause.arith.runState = .faultArith ∧
    seen short (step (fed [] true (cpu 0 0xFF [(0, 0x3A)]))) = some (.faultIO, 0, 0xFF) ∧
    FaultCause.io.runState = .faultIO ∧
    seen short (step (cpu 0 0xFF [(0, 0x78)])) = some (.halted, 0, 0xFF) := by decide

/-- FaultEntryStopsForGood: steps that return Continue, Halt and both faults to the host. -/
theorem witness_step_results :
    seen (fun t => (t.rs, t.wait)) (step (cpu 0 0xFF [(0, 0x31)])) = some (.running, false) ∧
    seen (fun t => (t.rs, t.wait)) (step (cpu 0 0xFF [(0, 0x78)])) = some (.halted, false) ∧
    stepResult (cpu 0 0xFF [(0, 0x31)]) = some .continue ∧ stepResult (cpu 0 0xFF [(0, 0x78)]) = some .halt ∧
    stepResult atDivision = some (.fault .arith) := by decide

/-- OnlyPortInstructionsTouchThePorts: output, input and the wait each change in some step. -/
theorem witness_port_changes :
    seen (fun t => t.out.length) (step (cpu 0 0xFE [(0, 0x6F)])) = some 1 ∧
    seen (fun t => t.inPos) (step (fed [0x41] false (cpu 0 0xFF [(0, 0x3A)]))) = some 1 ∧
    seen (fun t => t.wait) (step (cpu 0 0xFF [(0, 0x3A)])) = some true := by decide

/-- OutputOnlyGrows, InputIsConsumedInOrder: a step that does both. -/
theorem witness_prompt_and_line :
    seen (fun t => (t.out.length, t.input, t.inPos)) (step atLine) = some (2, [], 3) := by decide

/-- ComputationIgnoresThePorts: two states that differ in their ports only. -/
theorem witness_same_core :
    let s := cpu 0 0xFD [(0, 0x2B), (0xFE, 1), (0xFF, 2)]
    let u := fed [0x41] true s
    sameCore s u ∧ ¬ usesPorts (current s) ∧ s ≠ u ∧ seen short (step s) = some (.running, 1, 0xFE) :=
  ⟨⟨rfl, rfl, rfl, rfl⟩, by
    have shape : current (cpu 0 0xFD [(0, 0x2B), (0xFE, 1), (0xFF, 2)]) = .add := by decide
    rw [shape]; simp [usesPorts, readsInput, writesOutput], by decide, by decide⟩

/-- EveryStepKeepsTheInvariant: a state with the invariant whose step takes the fault ARITH. -/
theorem witness_invariant_fault : Inv atDivision ∧ seen short (step atDivision) = some (.faultArith, 2, 0xFD) := by
  refine ⟨⟨by decide, ?_, ?_, ?_, ?_, ?_, ?_, ?_⟩, by decide⟩ <;> simp [atDivision, cpu, State.reset]

/-- EveryStepKeepsTheInvariant, LaunchAndSupplyMeetTheInvariant: a core that waits at an `i`, its line now complete. -/
theorem witness_invariant_waiting :
    let s := { atLine with wait := true, out := promptEvents }
    Inv s ∧ seen short (step s) = some (.running, 1, 0xFE) := by
  have shape : current atLine = .indec := by decide
  refine ⟨⟨by decide, fun _ => ⟨rfl, .inl shape⟩, fun _ _ => ⟨[], rfl⟩, ?_, ?_, ?_, ?_, ?_⟩, by decide⟩ <;>
    simp [atLine, fed, cpu, State.reset, promptEvents, OutEvent.reply]

/-- LaunchAndSupplyMeetTheInvariant: a launch that starts a run. -/
theorem witness_launch :
    seen short (launch ⟨[.byte 0x31], true, []⟩ [0x78]) = some (.running, 0x00, 0xFF) := by decide

end Sys2Proof.Tests
end

section
/-! PROOFS. The statements about the whole state: the canonical memory, the ports a step may touch, the wait, and the
invariant every step keeps. Everything a step can do is taken from `exec_effect` and `step_inv`. -/

namespace Sys2Proof.Machine

/-! ### A canonical memory is determined by its cells -/

/-- The first entry of a canonical memory is its lowest cell that does not read blank, so a canonical memory that reads
the same does not begin behind it. -/
theorem Memory.head_le_head {lo hi j k : Nat} {v w : Byte} {m n : Memory} (hm : Memory.wfFrom lo ((k, v) :: m) = true)
    (hn : Memory.wfFrom hi ((j, w) :: n) = true)
    (same : ∀ a : Nat, a < 256 → Memory.read ((k, v) :: m) a = Memory.read ((j, w) :: n) a) : j ≤ k := by
  obtain ⟨-, hk, hv, -⟩ := (Memory.wfFrom_cons lo k v m).mp hm
  obtain ⟨-, hj, hw, rising⟩ := (Memory.wfFrom_cons hi j w n).mp hn
  by_contra behind
  have blank : Memory.read ((j, w) :: n) k = Memory.blank :=
    Memory.read_below ((Memory.wfFrom_cons j j w n).mpr ⟨le_rfl, hj, hw, rising⟩) (by omega)
  have here := same k hk
  rw [Memory.read_cons, if_pos rfl, blank] at here
  exact hv here

/-- A canonical memory whose cells all read blank has no entry. -/
theorem Memory.eq_nil_of_read_blank {lo : Nat} {m : Memory} (h : Memory.wfFrom lo m = true)
    (blank : ∀ a : Nat, a < 256 → m.read a = Memory.blank) : m = [] := by
  cases m with
  | nil => rfl
  | cons hd m =>
    obtain ⟨k, v⟩ := hd
    obtain ⟨-, hk, hv, -⟩ := (Memory.wfFrom_cons lo k v m).mp h
    have here := blank k hk
    rw [Memory.read_cons, if_pos rfl] at here
    exact absurd here hv

theorem Memory.eq_of_read_eq {lo hi : Nat} {m n : Memory} (hm : Memory.wfFrom lo m = true)
    (hn : Memory.wfFrom hi n = true) (same : ∀ a : Nat, a < 256 → m.read a = n.read a) : m = n := by
  induction m generalizing lo hi n with
  | nil => exact (Memory.eq_nil_of_read_blank hn fun a ha => (same a ha).symm).symm
  | cons hd m ih =>
    obtain ⟨k, v⟩ := hd
    cases n with
    | nil => exact Memory.eq_nil_of_read_blank hm same
    | cons hd' n =>
      obtain ⟨j, w⟩ := hd'
      obtain rfl : j = k :=
        le_antisymm (Memory.head_le_head hm hn same) (Memory.head_le_head hn hm fun a ha => (same a ha).symm)
      obtain ⟨-, hj, -, risingM⟩ := (Memory.wfFrom_cons lo j v m).mp hm
      obtain ⟨-, -, -, risingN⟩ := (Memory.wfFrom_cons hi j w n).mp hn
      have value : v = w := by simpa [Memory.read_cons] using same j hj
      have tails : m = n := ih risingM risingN fun a ha => by
        by_cases hja : j = a
        · rw [Memory.read_below risingM (by omega), Memory.read_below risingN (by omega)]
        · simpa [Memory.read_cons, hja] using same a ha
      rw [value, tails]

/-- Settles O13: the first entries agree, and the rest by induction on the list. -/
theorem canonicalMemoryIsDeterminedByItsCells : Obligations.CanonicalMemoryIsDeterminedByItsCells :=
  fun _ _ hm hn same => Memory.eq_of_read_eq hm hn same

/-! ### What every step keeps of the ports -/

/-- Only a reading instruction leaves a core waiting that did not wait before. -/
theorem Effect.readsInput_of_wait {i : Instr} {s t : State} (e : Effect i s t) (was : s.wait = false)
    (wait : t.wait = true) : readsInput i := by
  cases e.ending with
  | completed _ _ _ _ kept =>
    rcases kept with ⟨kept, -⟩ | ⟨-, reads⟩
    · simp [kept, was] at wait
    · exact reads
  | halted _ result => simp [result, was] at wait
  | arith _ _ result => simp [result] at wait
  | io _ _ _ _ _ ended => simp [ended] at wait
  | waits reads => exact reads

/-- Settles O7: in a terminal state by the no-op, in RUNNING by what any instruction can do. -/
theorem onlyAWaitingReadHasNoSuccessor : Obligations.OnlyAWaitingReadHasNoSuccessor := by
  intro s
  by_cases run : s.rs = .running
  · rw [step_running run]
    rcases exec_effect (current s) s with ⟨t, next, -⟩ | ⟨stop, wait, unended, read⟩
    · exact .inl ⟨t, next⟩
    · exact .inr ⟨stop, run, wait, unended, read⟩
  · exact .inl ⟨s, step_terminal run⟩

/-- Settles O54: each clause is the contrapositive of a field of the effect. -/
theorem onlyPortInstructionsTouchThePorts : Obligations.OnlyPortInstructionsTouchThePorts := by
  intro s t h
  rcases step_inv h with ⟨-, rfl⟩ | ⟨-, e⟩
  · exact ⟨by simp, by simp, by simp +contextual, rfl⟩
  · refine ⟨fun changed => ?_, fun changed => ?_, e.readsInput_of_wait, e.inEnded⟩
    · by_contra quiet
      obtain ⟨out, replies⟩ := e.silent quiet
      exact changed.elim (· out) (· replies)
    · by_contra quiet
      obtain ⟨input, inPos⟩ := e.noInput quiet
      exact changed.elim (· input) (· inPos)

/-- Settles O55: a terminal state appends nothing, an instruction what its effect says. -/
theorem outputOnlyGrows : Obligations.OutputOnlyGrows := by
  intro s t h
  rcases step_inv h with ⟨-, rfl⟩ | ⟨-, e⟩
  · exact ⟨[], by simp, by simp⟩
  · obtain ⟨events, out, few, -, -⟩ := e.output
    exact ⟨events, out, few⟩

/-- Settles O56: a terminal state consumes nothing, an instruction what its effect says. -/
theorem inputIsConsumedInOrder : Obligations.InputIsConsumedInOrder := by
  intro s t h
  rcases step_inv h with ⟨-, rfl⟩ | ⟨-, e⟩
  · exact ⟨[], by simp, by simp [countBytes]⟩
  · exact e.consumed

/-! ### The invariant -/

/-- A step from a state with no failed transaction leaves none, unless it ends in FAULT_IO. -/
theorem Effect.repliesOk {i : Instr} {s t : State} (e : Effect i s t) (ok : ∀ ev ∈ s.out, ev.reply = .ok)
    (noFault : t.rs ≠ .faultIO) : ∀ ev ∈ t.out, ev.reply = .ok := by
  obtain ⟨events, out, -, eventsOk, -⟩ := e.output
  rw [out]
  exact List.forall_mem_append.mpr ⟨ok, eventsOk noFault⟩

/-- A step from a state with no failed transaction leaves at most the last one failed. -/
theorem Effect.onlyLastFails {i : Instr} {s t : State} (e : Effect i s t) (ok : ∀ ev ∈ s.out, ev.reply = .ok) :
    ∀ ev ∈ t.out.dropLast, ev.reply = .ok := by
  obtain ⟨events, out, -, -, lastOk⟩ := e.output
  rw [out]
  rcases List.eq_nil_or_concat events with rfl | ⟨front, last, rfl⟩
  · rw [List.append_nil]
    exact fun ev mem => ok ev (List.mem_of_mem_dropLast mem)
  · rw [List.dropLast_append_of_ne_nil (by simp)]
    exact List.forall_mem_append.mpr ⟨ok, lastOk⟩

/-- In a state with the invariant, a core at an instruction that reads no input does not wait. -/
theorem Inv.wait_eq_false {s : State} (inv : Inv s) (noRead : ¬ readsInput (current s)) : s.wait = false := by
  by_contra wait
  exact noRead (inv.waiting (by simpa using wait)).2

theorem not_readsInput_of_halts {i : Instr} (h : halts i) : ¬ readsInput i := by
  rcases h with rfl | ⟨op, rfl⟩ <;> simp [readsInput]

/-- The invariant of a core that does not wait: what it says of the wait is void. -/
theorem Inv.of_idle {t : State} (canonical : t.mem.wf = true)
    (repliesOk : t.rs ≠ .faultIO → ∀ ev ∈ t.out, ev.reply = .ok) (onlyLastFails : ∀ ev ∈ t.out.dropLast, ev.reply = .ok)
    (idle : t.wait = false) (atHalt : t.rs = .halted → halts (current t))
    (atIoFault : t.rs = .faultIO → usesPorts (current t))
    (atArithFault : t.rs = .faultArith → divides (current t) ∧ topCell t = 0) : Inv t where
  canonical := canonical
  waiting := by simp [idle]
  prompted := by simp [idle]
  atHalt := atHalt
  atIoFault := atIoFault
  atArithFault := atArithFault
  repliesOk := repliesOk
  onlyLastFails := onlyLastFails

/-- Whatever way the instruction at `pc` ends, the invariant holds after it. Each ending but a completed one keeps
memory and `pc`, so that the core still stands at that instruction (R304, D6, D7). -/
theorem Inv.of_effect {s t : State} (inv : Inv s) (run : s.rs = .running) (e : Effect (current s) s t) : Inv t := by
  have ok : ∀ ev ∈ s.out, ev.reply = .ok := inv.repliesOk (by simp [run])
  have canonical := e.canonical inv.canonical
  have repliesOk := e.repliesOk ok
  have onlyLastFails := e.onlyLastFails ok
  cases e.ending with
  | completed rs _ _ _ kept =>
    have running : t.rs = .running := rs.trans run
    have idle : t.wait = false := by
      rcases kept with ⟨same, noRead⟩ | ⟨idle, -⟩
      · rw [same, inv.wait_eq_false noRead]
      · exact idle
    exact .of_idle canonical repliesOk onlyLastFails idle (by simp [running]) (by simp [running]) (by simp [running])
  | halted who result =>
    subst result
    have idle : (halt s).wait = false := inv.wait_eq_false (not_readsInput_of_halts who)
    exact .of_idle canonical repliesOk onlyLastFails idle (fun _ => who) (by simp) (by simp)
  | arith who zero result =>
    subst result
    exact .of_idle canonical repliesOk onlyLastFails rfl (by simp) (by simp) (fun _ => ⟨who, zero⟩)
  | io who mem pc _ rs idle =>
    have here : current t = current s := current_congr mem pc
    exact .of_idle canonical repliesOk onlyLastFails idle (by simp [rs]) (fun _ => here ▸ who) (by simp [rs])
  | waits who mem pc _ rs _ _ prompted =>
    have running : t.rs = .running := rs.trans run
    have here : current t = current s := current_congr mem pc
    exact {
      canonical, repliesOk, onlyLastFails
      waiting := fun _ => ⟨running, here ▸ who⟩
      prompted := fun _ indec => ⟨s.out, prompted (here ▸ indec)⟩
      atHalt := by simp [running]
      atIoFault := by simp [running]
      atArithFault := by simp [running] }

/-- Settles O58: a terminal state is its own successor, and an instruction keeps the invariant whatever its ending. -/
theorem everyStepKeepsTheInvariant : Obligations.EveryStepKeepsTheInvariant := by
  intro s t inv h
  rcases step_inv h with ⟨-, rfl⟩ | ⟨run, e⟩
  · exact inv
  · exact inv.of_effect run e

end Sys2Proof.Machine
end

section
/-! PROOFS. The wait: a read without an answer enters it, and the answer, when it has come, finds the machine where a
prompt answer would have found it. -/

namespace Sys2Proof.Machine

/-! ### `:` in the cases of the input -/

theorem exec_inbyte_byte {s : State} {b : Byte} {rest : List InItem} (h : s.input = .byte b :: rest) :
    exec .inbyte s = .next (advance (push b (answered rest 1 s))) := by
  show execInbyte s = _
  simp only [execInbyte, inReadByte_byte h]

theorem exec_inbyte_readError {s : State} {rest : List InItem} (h : s.input = .readError :: rest) :
    exec .inbyte s = .next (raiseFault .io s (answered rest 0 s)) := by
  show execInbyte s = _
  simp only [execInbyte, inReadByte_error h]

theorem exec_inbyte_ended {s : State} (h : s.input = []) (ended : s.inEnded = true) :
    exec .inbyte s = .next (raiseFault .io s (answered [] 0 s)) := by
  show execInbyte s = _
  simp [execInbyte, inReadByte_empty h, ended]

theorem exec_inbyte_pending {s : State} (h : s.input = []) (unended : s.inEnded = false) :
    exec .inbyte s = awaitInput s s := by
  show execInbyte s = _
  simp [execInbyte, inReadByte_empty h, unended]

/-! ### `i` up to its read -/

/-- The state in which `i` comes to its read, its prompt and its flush answered `ok`. -/
def afterPrompt (s : State) : State :=
  { s with out := s.out ++ promptEvents, outReplies := s.outReplies.drop 2 }

/-- The next two replies, one by one: that to the prompt, and that to the flush behind it. -/
theorem repliesOk_two_iff (s : State) :
    repliesOk 2 s ↔ nextReply s = .ok ∧ nextReply (outWrite prompt s).2 = .ok := by
  rcases replies : s.outReplies with _ | ⟨first, _ | ⟨second, more⟩⟩ <;> simp [repliesOk, nextReply, replies]

theorem outFlush_outWrite_prompt {s : State} (ok : repliesOk 2 s) :
    (outFlush (outWrite prompt s).2).2 = afterPrompt s := by
  obtain ⟨first, second⟩ := (repliesOk_two_iff s).mp ok
  simp only [outFlush, second]
  simp [outWrite, first, afterPrompt, promptEvents, ← List.drop_one]

/-- `i` whose output is answered `ok` comes to its read. -/
theorem exec_indec_afterPrompt {s : State} (fresh : s.wait = false) (ok : repliesOk 2 s) :
    exec .indec s = readDecimal s (afterPrompt s) := by
  obtain ⟨first, second⟩ := (repliesOk_two_iff s).mp ok
  rw [exec_indec_prompted fresh first second, outFlush_outWrite_prompt ok]

/-- `i` whose prompt or flush fails does not come to its read. -/
theorem exec_indec_output_fails {s : State} (fresh : s.wait = false) (fails : ¬ repliesOk 2 s) :
    ∃ now, exec .indec s = .next (raiseFault .io s now) := by
  show ∃ now, execIndec s = _
  rw [repliesOk_two_iff] at fails
  by_cases first : nextReply s = .ok
  · have second : nextReply (outWrite prompt s).2 ≠ .ok := fun second => fails ⟨first, second⟩
    exact ⟨(outFlush (outWrite prompt s).2).2, by simp [execIndec, fresh, first, second]⟩
  · exact ⟨(outWrite prompt s).2, by simp [execIndec, fresh, first]⟩

/-! ### Entering the wait -/

theorem awaitInput_fresh {before : State} (fresh : before.wait = false) (now : State) :
    awaitInput before now = .next { now with wait := true } := by
  simp [awaitInput_spec, fresh]

theorem awaitInput_waiting {before : State} (wait : before.wait = true) (now : State) :
    awaitInput before now = .fault .inputPending := by
  simp [awaitInput_spec, wait]

/-- Settles O45: an unanswered read of either instruction comes to `awaitInput`. -/
theorem unansweredReadWaits : Obligations.UnansweredReadWaits := by
  intro s
  refine ⟨fun empty unended => ?_, fun pending => ⟨fun fresh ok => ?_, fun wait => ?_⟩⟩
  · rw [exec_inbyte_pending empty unended]
    exact ⟨fun fresh => awaitInput_fresh fresh s, fun wait => awaitInput_waiting wait s⟩
  · rw [exec_indec_afterPrompt fresh ok, readDecimal_pending (s := afterPrompt s) pending, awaitInput_fresh fresh]
    rfl
  · rw [exec_indec_waiting wait, readDecimal_pending pending, awaitInput_waiting wait]

/-! ### Going on after the wait -/

/-- The state with its read outstanding. -/
def outstanding (s : State) : State :=
  { s with wait := true }

/-- A read of `before` that has come to `now`, with the outcome `first`: it has no answer yet, or `later`, the outcome
of the same read in a core that was waiting for it, is the same next state, which no longer waits. -/
def Resumes (before now : State) (first later : Host.Outcome State Fault Refusal) : Prop :=
  first = awaitInput before now ∨ ∃ t, first = .next t ∧ later = .next t ∧ t.wait = false

/-- A read that leaves the core waiting had no answer. -/
theorem Resumes.of_wait {before now t : State} {first later : Host.Outcome State Fault Refusal}
    (read : Resumes before now first later) (fresh : before.wait = false) (next : first = .next t)
    (wait : t.wait = true) : t = outstanding now := by
  subst next
  rcases read with pending | ⟨u, same, -, idle⟩
  · rw [awaitInput_fresh fresh] at pending
    exact Host.Outcome.next.inj pending
  · rw [Host.Outcome.next.inj same, idle] at wait
    cases wait

/-- A read that leaves the core not waiting was answered, and a waiting core finds the same answer. -/
theorem Resumes.of_done {before now t : State} {first later : Host.Outcome State Fault Refusal}
    (read : Resumes before now first later) (fresh : before.wait = false) (next : first = .next t)
    (done : t.wait = false) : later = .next t := by
  subst next
  rcases read with pending | ⟨u, same, result, -⟩
  · rw [awaitInput_fresh fresh] at pending
    rw [Host.Outcome.next.inj pending] at done
    cases done
  · rw [result, same]

theorem inbyte_resumes (s : State) : Resumes s s (exec .inbyte s) (exec .inbyte (outstanding s)) := by
  rcases input : s.input with _ | ⟨b | _, rest⟩
  · cases ended : s.inEnded with
    | false => exact .inl (exec_inbyte_pending input ended)
    | true =>
      exact .inr ⟨_, exec_inbyte_ended input ended, exec_inbyte_ended (s := outstanding s) input ended, rfl⟩
  · exact .inr ⟨_, exec_inbyte_byte input, exec_inbyte_byte (s := outstanding s) input, rfl⟩
  · exact .inr ⟨_, exec_inbyte_readError input, exec_inbyte_readError (s := outstanding s) input, rfl⟩

/-- The read of `i` goes on the same in any core `waiting` that kept the memory, `pc` and `sp` of `before`. -/
theorem readDecimal_resumes {before waiting : State} (now : State) (mem : waiting.mem = before.mem)
    (pc : waiting.pc = before.pc) (sp : waiting.sp = before.sp) :
    Resumes before now (readDecimal before now) (readDecimal waiting (outstanding now)) := by
  have fault (t : State) : raiseFault .io waiting t = raiseFault .io before t := by simp [raiseFault, mem, pc, sp]
  rcases line_cases now with ⟨line, rest, ahead⟩ | ⟨n, rest, fails⟩ | pending
  · have first := readDecimal_ahead (b := before) ahead
    have later := readDecimal_ahead (b := waiting) (s := outstanding now) ahead
    cases parsed : parseLine line with
    | some v =>
      simp only [parsed] at first later
      exact .inr ⟨_, first, later, rfl⟩
    | none =>
      simp only [parsed, fault] at first later
      exact .inr ⟨_, first, later, rfl⟩
  · have later := readDecimal_fails (b := waiting) (s := outstanding now) fails
    rw [fault] at later
    exact .inr ⟨_, readDecimal_fails fails, later, rfl⟩
  · exact .inl (readDecimal_pending pending)

/-- The state in which a reading instruction comes to its read. -/
def atRead : Instr → State → State
  | .indec, s => afterPrompt s
  | _, s => s

theorem exec_resumes {i : Instr} {s : State} (reads : readsInput i) (fresh : s.wait = false)
    (ok : i = .indec → repliesOk 2 s) :
    Resumes s (atRead i s) (exec i s) (exec i (outstanding (atRead i s))) := by
  rcases reads with rfl | rfl
  · rw [exec_indec_afterPrompt fresh (ok rfl), exec_indec_waiting rfl]
    exact readDecimal_resumes (afterPrompt s) rfl rfl rfl
  · exact inbyte_resumes s

/-- An `i` that begins to wait has had its output answered `ok`. -/
theorem repliesOk_of_wait {s t : State} (fresh : s.wait = false) (next : exec .indec s = .next t)
    (wait : t.wait = true) : repliesOk 2 s := by
  by_contra fails
  obtain ⟨now, fault⟩ := exec_indec_output_fails fresh fails
  rw [next, Host.Outcome.next.injEq] at fault
  simp [fault] at wait

/-- The host's supply of input touches the input only, so that it may come before or after the entry into the wait. -/
theorem supply_outstanding_atRead (items : List InItem) (ends : Bool) (i : Instr) (s : State) :
    supply items ends (outstanding (atRead i s)) = outstanding (atRead i (supply items ends s)) := by
  have frame : (outstanding (atRead i s)).inEnded = s.inEnded := by unfold atRead; split <;> rfl
  unfold supply
  rw [frame]
  split
  · rfl
  · unfold atRead
    split <;> rfl

theorem sameCore_supply (items : List InItem) (ends : Bool) (s : State) : sameCore s (supply items ends s) := by
  unfold supply
  split <;> exact ⟨rfl, rfl, rfl, rfl⟩

@[simp] theorem supply_wait (items : List InItem) (ends : Bool) (s : State) : (supply items ends s).wait = s.wait := by
  unfold supply
  split <;> rfl

@[simp] theorem supply_outReplies (items : List InItem) (ends : Bool) (s : State) :
    (supply items ends s).outReplies = s.outReplies := by
  unfold supply
  split <;> rfl

theorem sameCore_outstanding_atRead (i : Instr) (s : State) : sameCore s (outstanding (atRead i s)) := by
  unfold atRead
  split <;> exact ⟨rfl, rfl, rfl, rfl⟩

theorem sameCore.trans {s t u : State} (first : sameCore s t) (second : sameCore t u) : sameCore s u := by
  obtain ⟨mem, pc, sp, rs⟩ := first
  obtain ⟨mem', pc', sp', rs'⟩ := second
  exact ⟨mem'.trans mem, pc'.trans pc, sp'.trans sp, rs'.trans rs⟩

/-- A state with the core of a RUNNING one runs the instruction of that one. -/
theorem step_of_sameCore {s t : State} (core : sameCore s t) (run : s.rs = .running) : step t = exec (current s) t := by
  obtain ⟨mem, pc, -, rs⟩ := core
  rw [step_running (rs.trans run), current_congr mem pc]

/-- Settles O46: the step that waited stands at its read, and the step that had the input from the start comes to it
with the same output done; from there both go on alike. -/
theorem delayedAnswerMakesNoDifference : Obligations.DelayedAnswerMakesNoDifference := by
  intro s waiting done items ends fresh entered wait answered idle
  rcases step_inv entered with ⟨-, rfl⟩ | ⟨run, e⟩
  · simp [fresh] at wait
  have reads := e.readsInput_of_wait fresh wait
  have supplied := sameCore_supply items ends s
  rw [step_running run] at entered
  rw [step_of_sameCore supplied run] at answered
  have ok : current s = .indec → repliesOk 2 s := fun indec => repliesOk_of_wait fresh (indec ▸ entered) wait
  obtain rfl : waiting = outstanding (atRead (current s) s) := (exec_resumes reads fresh ok).of_wait fresh entered wait
  have fresh' : (supply items ends s).wait = false := by rw [supply_wait, fresh]
  have ok' : current s = .indec → repliesOk 2 (supply items ends s) := by simpa [repliesOk] using ok
  rw [supply_outstanding_atRead, step_of_sameCore (supplied.trans (sameCore_outstanding_atRead (current s) _)) run]
  exact (exec_resumes reads fresh' ok').of_done fresh' answered idle

end Sys2Proof.Machine
end

section
/-! PROOFS. Memory and the stack: what a write, a push and a pop do to the cells and the registers, what the next fetch
then reads, and the stack discipline of up to 256 pushes and pops. -/

namespace Sys2Proof.Machine

/-! ### The cells and the ports after a write, a push and a pop -/

theorem onlyCell_writeMem (s : State) (a : Addr) (v : Byte) : onlyCell a v s (writeMem s a v) :=
  ⟨by simp, fun c other => by simp [other]⟩

theorem onlyCell_push (v : Byte) (s : State) : onlyCell s.sp v s (push v s) :=
  ⟨by simp, fun c other => by simp [other]⟩

theorem samePorts_push (v : Byte) (s : State) : samePorts s (push v s) :=
  ⟨rfl, rfl, rfl, rfl, rfl, rfl⟩

theorem samePorts_pop (s : State) : samePorts s (pop s).2 :=
  ⟨rfl, rfl, rfl, rfl, rfl, rfl⟩

/-- Settles O12: the law of a read after a write; a jump leaves memory alone. -/
theorem readGivesTheLastWrite : Obligations.ReadGivesTheLastWrite :=
  fun s a v => ⟨onlyCell_writeMem s a v, fun c => readMem_jump s a c⟩

/-- Settles O14: the write goes to the cell at `sp`, and `sp` moves down with wrap. -/
theorem pushWritesTheFreeCell : Obligations.PushWritesTheFreeCell := by
  intro v s
  have down : (push v s).sp.toNat = (s.sp.toNat + 255) % 256 := by
    rw [push_sp]
    bv_omega
  exact ⟨onlyCell_push v s, down, push_pc v s, push_rs v s, samePorts_push v s⟩

/-- Settles O15: `sp` moves up with wrap, and the cell read is the one it then points at. -/
theorem popReadsTheCellAbove : Obligations.PopReadsTheCellAbove := by
  intro s
  have up : (pop s).2.sp.toNat = (s.sp.toNat + 1) % 256 := by
    rw [pop_sp]
    bv_omega
  exact ⟨pop_value s, up, pop_mem s, pop_pc s, pop_rs s, samePorts_pop s⟩

/-! ### Up to 256 pushes and as many pops -/

theorem pushAll_append (vs ws : List Byte) (s : State) : pushAll (vs ++ ws) s = pushAll ws (pushAll vs s) := by
  induction vs generalizing s with
  | nil => rfl
  | cons v vs ih => exact ih (push v s)

/-- `n` pops look at `sp` and at the `n` cells above it only: states that agree there pop the same bytes and end with
the same `sp`. -/
theorem popAll_congr {s t : State} (n : Nat) (sp : t.sp = s.sp)
    (cells : ∀ k, k < n → readMem t (s.sp + BitVec.ofNat 8 (k + 1)) = readMem s (s.sp + BitVec.ofNat 8 (k + 1))) :
    (popAll n t).1 = (popAll n s).1 ∧ (popAll n t).2.sp = (popAll n s).2.sp := by
  induction n generalizing s t with
  | zero => exact ⟨rfl, sp⟩
  | succ n ih =>
    have top : (pop t).1 = (pop s).1 := by
      rw [pop_value, pop_value, sp]
      exact cells 0 n.succ_pos
    have above (k : Nat) : (pop s).2.sp + BitVec.ofNat 8 (k + 1) = s.sp + BitVec.ofNat 8 (k + 1 + 1) := by
      rw [pop_sp]
      bv_omega
    obtain ⟨values, ends⟩ := ih (s := (pop s).2) (t := (pop t).2) (by rw [pop_sp, pop_sp, sp]) fun k hk => by
      rw [above, readMem_pop, readMem_pop]
      exact cells (k + 1) (by omega)
    exact ⟨by rw [popAll, popAll, top, values], ends⟩

/-- Once a pushed byte has been popped again, up to 255 further pops go as if it had never been pushed: only the free
cell at `sp` differs, and they do not come round to it. -/
theorem popAll_pop_push (v : Byte) (s : State) {n : Nat} (few : n < 256) :
    (popAll n (pop (push v s)).2).1 = (popAll n s).1 ∧ (popAll n (pop (push v s)).2).2.sp = (popAll n s).2.sp := by
  refine popAll_congr n (pop_push v s).2 fun k hk => ?_
  have other : s.sp + BitVec.ofNat 8 (k + 1) ≠ s.sp := by bv_omega
  rw [readMem_pop, readMem_push, if_neg other]

/-- Settles O16, by induction on the bytes from the last one pushed, which is the first one popped. -/
theorem pushedBytesPopInReverse : Obligations.PushedBytesPopInReverse := by
  intro s vs fits
  induction vs using List.reverseRecOn with
  | nil => exact ⟨rfl, rfl⟩
  | append_singleton vs v ih =>
    rw [List.length_append, List.length_singleton] at fits
    obtain ⟨values, start⟩ := ih (by omega)
    obtain ⟨values', start'⟩ := popAll_pop_push v (pushAll vs s) fits
    have top : (pop (push v (pushAll vs s))).1 = v := (pop_push v (pushAll vs s)).1
    rw [pushAll_append, List.length_append, List.length_singleton, List.reverse_concat]
    exact ⟨by rw [pushAll, pushAll, popAll, top, values', values], start'.trans start⟩

/-! ### The fetch -/

/-- The instruction at `a` is what the byte there decodes to, read in the memory as it now is (R53). -/
theorem current_jump (a : Addr) (s : State) : current (jump a s) = decode (readMem s a) := rfl

/-- What a step in RUNNING does, by the byte at `pc`. -/
theorem step_running_fetch {s : State} (run : s.rs = .running) : step s = exec (decode (readMem s s.pc)) s :=
  step_running run

/-- What `s` does, by its two operands (R222). -/
theorem exec_store (s : State) :
    exec .store s = .next (advance (writeMem (afterTwoPops s) (operandB s) (operandA s))) := rfl

/-- A store into the byte behind the instruction is what the next step runs. -/
theorem step_after_store_ahead {s t : State} (run : s.rs = .running) (store : current s = .store)
    (ahead : operandB s = s.pc + 1) (next : step s = .next t) : step t = exec (decode (operandA s)) t := by
  rw [step_running run, store, exec_store, Host.Outcome.next.injEq] at next
  have running : t.rs = .running := by rw [← next]; exact run
  have pc : t.pc = operandB s := by rw [← next, ahead]; rfl
  have stored : readMem t t.pc = operandA s := by rw [pc, ← next, readMem_advance, readMem_writeMem, if_pos rfl]
  rw [step_running_fetch running, stored]

/-- Settles O17: the fetch reads the memory as the write or the push left it. -/
theorem fetchSeesTheStoredByte : Obligations.FetchSeesTheStoredByte := by
  refine ⟨fun s a v => ?_, fun s v a => current_jump a (push v s), fun s t => step_after_store_ahead,
    fun s => step_running_fetch⟩
  rw [current_jump, readMem_writeMem, if_pos rfl]

end Sys2Proof.Machine
end

section
/-! PROOFS. Encoding and the step cycle: the decoder and the encoder invert each other on the opcode map and on R63's
list, a step is the decoded instruction, `sp` moves by the table, and an instruction without a port ignores the ports. -/

namespace Sys2Proof.Machine

/-! ### The decoder and the encoder -/

/-- Each row of the map is read by the decoder and written by the encoder, and its byte is none of R63's list. -/
theorem opcodeMap_row : ∀ row ∈ opcodeMap,
    decode row.1 = row.2 ∧ encode row.2 = row.1 ∧ row.2.wellFormed = true ∧ unrecognizedByte row.1 = false := by
  decide

/-- The map of R62 and the list of R63 together hold all 256 byte values. -/
theorem unrecognizedByte_or_mem_opcodeMap :
    ∀ op : Byte, unrecognizedByte op = true ∨ ∃ row ∈ opcodeMap, row.1 = op := by
  decide

theorem decode_encode {i : Instr} (wf : i.wellFormed = true) : decode (encode i) = i := by
  cases i with
  | unrecognized op => exact Laws.decode_unrecognizedByte op wf
  | _ => rfl

theorem wellFormed_decode (op : Byte) : (decode op).wellFormed = true := by
  rcases unrecognizedByte_or_mem_opcodeMap op with unrecognized | ⟨row, mem, rfl⟩
  · rw [Laws.decode_unrecognizedByte op unrecognized]
    exact unrecognized
  · obtain ⟨decoded, -, wf, -⟩ := opcodeMap_row row mem
    rw [decoded, wf]

theorem encode_decode (op : Byte) : encode (decode op) = op := by
  rcases unrecognizedByte_or_mem_opcodeMap op with unrecognized | ⟨row, mem, rfl⟩
  · rw [Laws.decode_unrecognizedByte op unrecognized, encode]
  · obtain ⟨decoded, encoded, -, -⟩ := opcodeMap_row row mem
    rw [decoded, encoded]

/-- An unrecognized byte does what `x` does (R101). -/
theorem exec_unrecognized (op : Byte) (s : State) : exec (.unrecognized op) s = exec .halt s := rfl

/-- Settles O1, by evaluation of the decoder on the listed words. -/
theorem opcodeWordsDecode : Obligations.OpcodeWordsDecode := by
  unfold Obligations.OpcodeWordsDecode
  decide

/-- Settles O2: the rows one by one, and R63's list by what the decoder and `exec` do with an unrecognized byte. -/
theorem decodeFollowsTheOpcodeMap : Obligations.DecodeFollowsTheOpcodeMap := by
  refine ⟨fun row mem => ?_, rfl, fun op unrecognized => ?_, unrecognizedByte_or_mem_opcodeMap⟩
  · obtain ⟨decoded, -, -, recognized⟩ := opcodeMap_row row mem
    exact ⟨decoded, recognized⟩
  · have decoded := Laws.decode_unrecognizedByte op unrecognized
    exact ⟨decoded, fun s => by rw [decoded, exec_unrecognized]⟩

/-- Settles O3: from an instruction by its constructor, from a byte by the map and R63's list. -/
theorem decodeAndEncodeAreInverse : Obligations.DecodeAndEncodeAreInverse :=
  ⟨fun _ => decode_encode, fun op => ⟨wellFormed_decode op, encode_decode op⟩⟩

/-! ### The step cycle -/

/-- Settles O5: the fetch of the step in RUNNING, and the decoder on the byte of the instruction. -/
theorem stepRunsTheDecodedInstruction : Obligations.StepRunsTheDecodedInstruction := by
  intro s run
  have fetched := step_running_fetch run
  refine ⟨fetched, fun i wf byte => ?_⟩
  rw [fetched, byte, decode_encode wf]

theorem core_run_terminal {s : State} (terminal : s.rs ≠ .running) (n : Nat) : core.run n s = .next s := by
  induction n with
  | zero => rfl
  | succ n ih => rw [core_run_next (step_terminal terminal), ih]

/-- Settles O6: the no-op of one step, and by induction of any number. -/
theorem terminalStatesStayPut : Obligations.TerminalStatesStayPut :=
  fun _ n terminal => ⟨step_terminal terminal, core_run_terminal terminal n⟩

/-! ### The column "Net sp" -/

/-- Settles O18: of the ways an instruction can end, only completion leaves the core RUNNING and not waiting. -/
theorem completedInstructionMovesSpByTheTable : Obligations.CompletedInstructionMovesSpByTheTable := by
  intro i s t next running idle
  cases (exec_inv next).ending with
  | completed _ sp => exact sp
  | halted _ result => simp [result] at running
  | arith _ _ result => simp [result] at running
  | io _ _ _ _ rs => simp [rs] at running
  | waits _ _ _ _ _ _ wait => simp [wait] at idle

/-! ### States with the same core

The operations on memory and registers read the core only, so that they take states with the same core to states with
the same core. -/

theorem sameCore.readMem {s u : State} (core : sameCore s u) (a : Addr) : readMem u a = readMem s a := by
  obtain ⟨mem, -, -, -⟩ := core
  exact readMem_congr mem a

theorem sameCore.writeMem {s u : State} (core : sameCore s u) (a : Addr) (v : Byte) :
    sameCore (writeMem s a v) (writeMem u a v) := by
  obtain ⟨mem, pc, sp, rs⟩ := core
  exact ⟨by simp [mem], pc, sp, rs⟩

theorem sameCore.push {s u : State} (core : sameCore s u) (v : Byte) : sameCore (push v s) (push v u) := by
  obtain ⟨mem, pc, sp, rs⟩ := core
  exact ⟨by simp [mem, sp], pc, by simp [sp], rs⟩

theorem sameCore.pop {s u : State} (core : sameCore s u) : sameCore (pop s).2 (pop u).2 := by
  obtain ⟨mem, pc, sp, rs⟩ := core
  exact ⟨mem, pc, by simp [sp], rs⟩

theorem sameCore.popped {s u : State} (core : sameCore s u) : (Machine.pop u).1 = (Machine.pop s).1 := by
  obtain ⟨-, -, sp, -⟩ := id core
  rw [pop_value, pop_value, sp, core.readMem]

theorem sameCore.advance {s u : State} (core : sameCore s u) : sameCore (advance s) (advance u) := by
  obtain ⟨mem, pc, sp, rs⟩ := core
  exact ⟨mem, by simp [pc], sp, rs⟩

theorem sameCore.jump {s u : State} (core : sameCore s u) (a : Addr) : sameCore (jump a s) (jump a u) := by
  obtain ⟨mem, -, sp, rs⟩ := core
  exact ⟨mem, rfl, sp, rs⟩

theorem sameCore.halt {s u : State} (core : sameCore s u) : sameCore (halt s) (halt u) := by
  obtain ⟨mem, pc, sp, -⟩ := core
  exact ⟨mem, pc, sp, rfl⟩

/-- A fault keeps the core of the state the instruction began in, whatever it has come to (R304). -/
theorem sameCore.raiseFault {s u : State} (core : sameCore s u) (cause : FaultCause) (now now' : State) :
    sameCore (raiseFault cause s now) (raiseFault cause u now') := by
  obtain ⟨mem, pc, sp, -⟩ := core
  exact ⟨mem, pc, sp, rfl⟩

/-! ### Noninterference -/

/-- Both outcomes are next states, and these have the same core. -/
def SameCoreNext (x y : Host.Outcome State Fault Refusal) : Prop :=
  ∃ t w, x = .next t ∧ y = .next w ∧ sameCore t w

theorem sameCore.next {t w : State} (core : sameCore t w) : SameCoreNext (.next t) (.next w) :=
  ⟨t, w, rfl, rfl, core⟩

theorem sameCore.unary {s u : State} (core : sameCore s u) (f : Byte → Byte) :
    SameCoreNext (unary f s) (unary f u) := by
  simp only [Machine.unary, core.popped]
  exact (core.pop.push _).advance.next

theorem sameCore.binary {s u : State} (core : sameCore s u) (f : Byte → Byte → Byte) :
    SameCoreNext (binary f s) (binary f u) := by
  simp only [Machine.binary, core.popped, core.pop.popped]
  exact (core.pop.pop.push _).advance.next

/-- The divisor, which decides whether the division faults, belongs to the core. -/
theorem sameCore.divisive {s u : State} (core : sameCore s u) (f : Byte → Byte → Byte) :
    SameCoreNext (divisive f s) (divisive f u) := by
  simp only [Machine.divisive, core.popped, core.pop.popped]
  split
  · exact (core.raiseFault .arith _ _).next
  · exact (core.pop.pop.push _).advance.next

theorem sameCore.pushNibble {s u : State} (core : sameCore s u) (n : BitVec 4) :
    SameCoreNext (pushNibble n s) (pushNibble n u) :=
  (core.push _).advance.next

theorem sameCore.exec_swap {s u : State} (core : sameCore s u) : SameCoreNext (exec .swap s) (exec .swap u) := by
  simp only [Machine.exec, execSwap, core.popped, core.pop.popped]
  exact ((core.pop.pop.push _).push _).advance.next

theorem sameCore.exec_dup {s u : State} (core : sameCore s u) : SameCoreNext (exec .dup s) (exec .dup u) := by
  simp only [Machine.exec, execDup, core.popped]
  exact ((core.pop.push _).push _).advance.next

theorem sameCore.exec_jmp {s u : State} (core : sameCore s u) : SameCoreNext (exec .jmp s) (exec .jmp u) := by
  simp only [Machine.exec, execJmp, core.popped]
  exact (core.pop.jump _).next

/-- The condition, which decides whether the jump is taken, belongs to the core. -/
theorem sameCore.exec_jnz {s u : State} (core : sameCore s u) : SameCoreNext (exec .jnz s) (exec .jnz u) := by
  simp only [Machine.exec, execJnz, core.popped, core.pop.popped]
  split
  · exact (core.pop.pop.jump _).next
  · exact core.pop.pop.advance.next

theorem sameCore.exec_load {s u : State} (core : sameCore s u) : SameCoreNext (exec .load s) (exec .load u) := by
  simp only [Machine.exec, execLoad, core.popped, core.pop.readMem]
  exact (core.pop.push _).advance.next

theorem sameCore.exec_store {s u : State} (core : sameCore s u) : SameCoreNext (exec .store s) (exec .store u) := by
  simp only [Machine.exec, execStore, core.popped, core.pop.popped]
  exact (core.pop.pop.writeMem _ _).advance.next

/-- An instruction that uses no port takes states with the same core to states with the same core. -/
theorem sameCore.exec {i : Instr} {s u : State} (core : sameCore s u) (portless : ¬ usesPorts i) :
    SameCoreNext (exec i s) (exec i u) := by
  cases i
  case indec => exact absurd (.inl (.inl rfl)) portless
  case inbyte => exact absurd (.inl (.inr rfl)) portless
  case outdec => exact absurd (.inr (.inr (.inl rfl))) portless
  case outbyte => exact absurd (.inr (.inr (.inr (.inl rfl)))) portless
  case dump => exact absurd (.inr (.inr (.inr (.inr rfl)))) portless
  case halt | unrecognized => exact core.halt.next
  case lnot | not => exact core.unary _
  case comb => exact core.binary combine
  case add | sub | mul | pow | eq | lt | gt | or | and | xor => exact core.binary _
  case div | rem => exact core.divisive _
  case swap => exact core.exec_swap
  case dup => exact core.exec_dup
  case drop => exact core.pop.advance.next
  case jmp => exact core.exec_jmp
  case jnz => exact core.exec_jnz
  case load => exact core.exec_load
  case store => exact core.exec_store
  case pushn0 | pushn1 | pushn2 | pushn3 | pushn4 | pushn5 | pushn6 | pushn7 | pushn8 | pushn9 | pushn10 | pushn11 |
      pushn12 | pushn13 | pushn14 | pushn15 => exact core.pushNibble _

/-- Settles O57: a terminal state stays as it is, and in RUNNING both states run the same instruction. -/
theorem computationIgnoresThePorts : Obligations.ComputationIgnoresThePorts := by
  intro s u t core portless next
  by_cases run : s.rs = .running
  · obtain ⟨t', w, first, second, after⟩ := core.exec portless
    rw [step_running run, first, Host.Outcome.next.injEq] at next
    exact ⟨w, by rw [step_of_sameCore core run, second], next ▸ after⟩
  · obtain ⟨-, -, -, rs⟩ := id core
    have terminal : u.rs ≠ .running := by rwa [rs]
    rw [step_terminal run, Host.Outcome.next.injEq] at next
    exact ⟨u, step_terminal terminal, next ▸ core⟩

end Sys2Proof.Machine
end

section
/-! PROOFS. Halt, the literal digits and combine: the two halts are one operation on `rs`, a digit is a push of its
nibble, and combine is the two-operand form over a shift and an OR. -/

namespace Sys2Proof.Machine

/-! ### Halt -/

theorem exec_halt (s : State) : exec .halt s = .next { s with rs := .halted } := rfl

/-- Settles O19: the halt of `x`, and an unrecognized byte does the same. -/
theorem haltChangesOnlyTheRunState : Obligations.HaltChangesOnlyTheRunState :=
  ⟨exec_halt, fun op s => (exec_unrecognized op s).trans (exec_halt s)⟩

/-! ### The literal digits -/

/-- A byte whose instruction is the common sequence of the literal digits pushes its nibble, zero-extended. -/
theorem literal_pushes {op : Byte} {i : Instr} (n : BitVec 4) (decoded : decode op = i)
    (shape : exec i = pushNibble n) :
    decode op = i ∧ ∀ s : State, exec i s = .next (advance (push (n.setWidth 8) s)) :=
  ⟨decoded, fun s => by rw [shape, pushNibble]⟩

/-- Settles O20: each row of the table is the common sequence at its own nibble. -/
theorem literalDigitsPushTheirNibble : Obligations.LiteralDigitsPushTheirNibble := by
  unfold Obligations.LiteralDigitsPushTheirNibble
  simp only [List.forall_mem_cons, List.not_mem_nil, false_implies, implies_true, and_true]
  exact ⟨literal_pushes 0 rfl rfl, literal_pushes 1 rfl rfl, literal_pushes 2 rfl rfl, literal_pushes 3 rfl rfl,
    literal_pushes 4 rfl rfl, literal_pushes 5 rfl rfl, literal_pushes 6 rfl rfl, literal_pushes 7 rfl rfl,
    literal_pushes 8 rfl rfl, literal_pushes 9 rfl rfl, literal_pushes 10 rfl rfl, literal_pushes 11 rfl rfl,
    literal_pushes 12 rfl rfl, literal_pushes 13 rfl rfl, literal_pushes 14 rfl rfl, literal_pushes 15 rfl rfl⟩

/-! ### Combine -/

/-- An instruction that moves `sp` to `a`, pushes one byte and advances writes the cell `a` only. -/
theorem writesOneCell_of_push {i : Instr} {s : State} {a : Addr} {v : Byte}
    (shape : exec i s = .next (advance (push v { s with sp := a }))) : writesOneCell i s (a - 1) a v :=
  ⟨_, shape, rfl, rfl, rfl, samePorts_push v { s with sp := a }, onlyCell_push v { s with sp := a }⟩

/-- The two-operand form writes its result over the deeper operand. -/
theorem writesOneCell_of_binary {i : Instr} {s : State} (f : Byte → Byte → Byte) (shape : exec i s = binary f s) :
    writesOneCell i s (s.sp + 1) (s.sp + 2) (f (belowCell s) (topCell s)) := by
  rw [← sp_up_twice_down]
  exact writesOneCell_of_push (shape.trans (binary_spec f s))

/-- The shift by a nibble is the product with 16, modulo 256. -/
theorem combine_eq (hi lo : Byte) : combine hi lo = BitVec.ofNat 8 (hi.toNat * 16) ||| lo := by
  have shift : hi <<< 4 = BitVec.ofNat 8 (hi.toNat * 16) := by
    apply BitVec.eq_of_toNat_eq
    simp [Nat.shiftLeft_eq]
  rw [combine, shift]

/-- Settles O21: combine is the two-operand form over `combine`. -/
theorem nibbleCombineOnAnyBytes : Obligations.NibbleCombineOnAnyBytes := by
  intro s
  rw [← combine_eq]
  exact writesOneCell_of_binary combine rfl

end Sys2Proof.Machine
end

section
/-! PROOFS. The I/O instructions: the line read is a function of the stream, `PARSE_LINE` is trimming followed by the
digits' value, and each instruction ends in an advance or in a fault that keeps the core as it was. -/

namespace Sys2Proof.Machine

/-! ### The line read -/

/-- Settles O38: each case of the stream has its own answer, so that no two of them hold together. -/
theorem lineReadFollowsTheStream : Obligations.LineReadFollowsTheStream := by
  intro s
  refine ⟨?_, fun line rest n rest' => ?_, fun line rest => ?_, fun n rest => ?_⟩
  · rcases line_cases s with ⟨line, rest, ahead⟩ | ⟨n, rest, fails⟩ | pending
    · exact .inl ⟨line, rest, ahead, inReadLine_ahead ahead⟩
    · exact .inr (.inl ⟨n, rest, fails, inReadLine_fails fails⟩)
    · exact .inr (.inr ⟨pending, inReadLine_pending pending⟩)
  · rintro ⟨ahead, fails⟩
    exact nomatch (inReadLine_ahead ahead).symm.trans (inReadLine_fails fails)
  · rintro ⟨ahead, pending⟩
    exact nomatch (inReadLine_ahead ahead).symm.trans (inReadLine_pending pending)
  · rintro ⟨fails, pending⟩
    exact nomatch (inReadLine_fails fails).symm.trans (inReadLine_pending pending)

/-! ### Trimming -/

theorem trim_eq_nil_of_ascii {line : List Byte} (ascii : line.all isAsciiSpace = true) : trim line = [] := by
  obtain ⟨k, front, j, le, rfl, -, shape, -, -, longest, -⟩ := trim_spec line
  have whole : k = line.length := by
    by_contra short
    have no := longest line.length (by omega) (Nat.le_refl _)
    rw [List.take_length, isBlank_of_ascii ascii] at no
    cases no
  rw [shape, whole, List.drop_length, List.take_nil]

/-- What trimming takes off is white space at the two ends. -/
theorem trim_split (line : List Byte) :
    ∃ before after, line = before ++ trim line ++ after ∧ isBlank before = true ∧ isBlank after = true := by
  obtain ⟨k, front, j, -, rfl, -, shape, blankFront, blankBack, -, -⟩ := trim_spec line
  refine ⟨line.take k, (line.drop k).drop j, ?_, blankFront, blankBack⟩
  rw [shape, List.append_assoc, List.take_append_drop, List.take_append_drop]

theorem mem_trim_of_isText {line : List Byte} {b : Byte} (here : b ∈ line) (text : isText b = true) :
    b ∈ trim line := by
  obtain ⟨before, after, split, front, back⟩ := trim_split line
  have outside {run : List Byte} (blank : isBlank run = true) : b ∉ run := fun inside => by
    rw [isBlank_of_text inside text] at blank
    cases blank
  rw [split, List.mem_append, List.mem_append] at here
  exact (here.resolve_right (outside back)).resolve_left (outside front)

/-- White space in front of the text would make the run taken off the front longer. -/
theorem trim_head_not_ascii {l : List Byte} {b : Byte} (head : (trim l).head? = some b) :
    isAsciiSpace b = false := by
  obtain ⟨k, front, j, -, rfl, -, shape, blank, -, longest, -⟩ := trim_spec l
  have at_k : l[k]? = some b := by
    rw [shape, List.head?_take] at head
    split at head
    · cases head
    · rwa [List.head?_drop] at head
  obtain ⟨inside, -⟩ := List.getElem?_eq_some_iff.mp at_k
  have no := longest (k + 1) (by omega) (by omega)
  rw [List.take_add_one, at_k, Option.toList_some] at no
  by_contra space
  rw [isBlank_append_ascii (by simpa using space), blank] at no
  cases no

/-- White space behind the text would make the run taken off the back longer. -/
theorem trim_last_not_ascii {line : List Byte} {b : Byte} (last : (trim line).getLast? = some b) :
    isAsciiSpace b = false := by
  obtain ⟨k, front, j, -, -, le, shape, -, blank, -, longest⟩ := trim_spec line
  rw [shape, List.getLast?_eq_getElem?, List.length_take, Nat.min_eq_left le, List.getElem?_take] at last
  split at last
  · next inside =>
    obtain ⟨bound, at_last⟩ := List.getElem?_eq_some_iff.mp last
    have no := longest (j - 1) inside
    rw [List.drop_eq_getElem_cons bound, at_last, Nat.sub_add_cancel (by omega)] at no
    by_contra space
    rw [isBlank_cons_ascii (by simpa using space), blank] at no
    cases no
  · cases last

/-! ### The value of the text -/

theorem isText_of_isDigit {b : Byte} (digit : isDigit b = true) : isText b = true := by
  simp [isText, digit]

theorem parseDigits_of_digits {t : List Byte} (full : t ≠ []) (digits : t.all isDigit = true) :
    parseDigits t = if digitsValue t ≤ 255 then some (BitVec.ofNat 8 (digitsValue t)) else none := by
  simp [parseDigits, full, digits]

theorem parseDigits_of_not_isDigit {t : List Byte} {b : Byte} (here : b ∈ t) (other : isDigit b = false) :
    parseDigits t = none := by
  have some_other : t.all isDigit = false := List.all_eq_false.mpr ⟨b, here, by simp [other]⟩
  simp [parseDigits, some_other]

/-- A text of digits has no plus sign in front. -/
theorem parseTrimmed_of_digits {t : List Byte} (full : t ≠ []) (digits : t.all isDigit = true) :
    parseTrimmed t = parseDigits t := by
  cases t with
  | nil => contradiction
  | cons c rest =>
    have digit : isDigit c = true := List.all_eq_true.mp digits c List.mem_cons_self
    have noPlus : c ≠ 0x2B := by
      rintro rfl
      exact absurd digit (by decide)
    rw [parseTrimmed, if_neg noPlus]

theorem parseTrimmed_of_not_isDigit {t : List Byte} {b : Byte} (here : b ∈ t) (other : isDigit b = false)
    (noPlus : b ≠ 0x2B) : parseTrimmed t = none := by
  cases t with
  | nil => cases here
  | cons c rest =>
    rw [parseTrimmed]
    split
    · next plus =>
      have behind : b ∈ rest := (List.mem_cons.mp here).resolve_left fun same => noPlus (same.trans plus)
      rw [parseDigits_of_not_isDigit behind other, ite_self]
    · exact parseDigits_of_not_isDigit here other

/-- Digits between ASCII white space are read as their decimal value, up to 255 (R122 (a) to (c)). -/
theorem parseLine_padded_digits {before t after : List Byte} (front : before.all isAsciiSpace = true)
    (back : after.all isAsciiSpace = true) (full : t ≠ []) (digits : t.all isDigit = true) :
    parseLine (before ++ t ++ after) =
      if digitsValue t ≤ 255 then some (BitVec.ofNat 8 (digitsValue t)) else none := by
  have text : t.all isText = true :=
    List.all_eq_true.mpr fun b here => isText_of_isDigit (List.all_eq_true.mp digits b here)
  rw [parseLine, trim_padded (isBlank_of_ascii front) (isBlank_of_ascii back) full text,
    parseTrimmed_of_digits full digits, parseDigits_of_digits full digits]

/-- Settles O39, condition by condition from the lemmas on `trim` and on `parseTrimmed`. -/
theorem parseLineMeetsItsConditions : Obligations.ParseLineMeetsItsConditions := by
  refine ⟨fun before t after => parseLine_padded_digits, fun line nothing => ?_, fun line => trim_eq_nil_of_ascii,
    fun line b => parseTrimmed_of_not_isDigit, trim_split, fun line b ends => ?_, fun line b => mem_trim_of_isText⟩
  · rw [parseLine, nothing, parseTrimmed]
  · rcases ends with head | last
    · exact trim_head_not_ascii head
    · exact trim_last_not_ascii last

/-! ### The decimal text of a byte -/

theorem digitByte_toNat {d : Nat} (digit : d < 10) : (digitByte d).toNat = 0x30 + d := by
  simp [digitByte]
  omega

theorem isDigit_digitByte {d : Nat} (digit : d < 10) : isDigit (digitByte d) = true := by
  simp [isDigit, digitByte_toNat digit]
  omega

theorem digitValue_digitByte {d : Nat} (digit : d < 10) : digitValue (digitByte d) = d := by
  simp [digitValue, digitByte_toNat digit]

/-- Only the digit of 0 is the byte 0x30. -/
theorem digitByte_ne_zero {d : Nat} (digit : d < 10) (pos : 0 < d) : digitByte d ≠ 0x30 := by
  intro zero
  have value := digitByte_toNat digit
  rw [zero] at value
  simp at value
  omega

/-- The text of a byte is its one, two or three decimal digits, the first of them 0 only where it is the only one. -/
theorem dec_cases (v : Byte) :
    (∃ a, a < 10 ∧ v.toNat = a ∧ dec v = [digitByte a]) ∨
    (∃ a b, 0 < a ∧ a < 10 ∧ b < 10 ∧ v.toNat = 10 * a + b ∧ dec v = [digitByte a, digitByte b]) ∨
    ∃ a b c, 0 < a ∧ a < 10 ∧ b < 10 ∧ c < 10 ∧ v.toNat = 10 * (10 * a + b) + c ∧
      dec v = [digitByte a, digitByte b, digitByte c] := by
  have byte : v.toNat < 256 := v.isLt
  simp only [dec]
  split
  · next one => exact .inl ⟨_, one, rfl, rfl⟩
  · split
    · next two => exact .inr (.inl ⟨_, _, by omega, by omega, by omega, by omega, rfl⟩)
    · next three => exact .inr (.inr ⟨_, _, _, by omega, by omega, by omega, by omega, by omega, rfl⟩)

theorem dec_all_isDigit (v : Byte) : (dec v).all isDigit = true := by
  rcases dec_cases v with ⟨a, ha, -, shape⟩ | ⟨a, b, -, ha, hb, -, shape⟩ | ⟨a, b, c, -, ha, hb, hc, -, shape⟩
  · simp [shape, isDigit_digitByte ha]
  · simp [shape, isDigit_digitByte ha, isDigit_digitByte hb]
  · simp [shape, isDigit_digitByte ha, isDigit_digitByte hb, isDigit_digitByte hc]

theorem digitsValue_dec (v : Byte) : digitsValue (dec v) = v.toNat := by
  rcases dec_cases v with ⟨a, ha, value, shape⟩ | ⟨a, b, -, ha, hb, value, shape⟩ |
    ⟨a, b, c, -, ha, hb, hc, value, shape⟩
  · simp [shape, value, digitsValue, digitValue_digitByte ha]
  · simp [shape, value, digitsValue, digitValue_digitByte ha, digitValue_digitByte hb]
  · simp [shape, value, digitsValue, digitValue_digitByte ha, digitValue_digitByte hb, digitValue_digitByte hc]

theorem dec_length (v : Byte) : 1 ≤ (dec v).length ∧ (dec v).length ≤ 3 := by
  rcases dec_cases v with ⟨a, -, -, shape⟩ | ⟨a, b, -, -, -, -, shape⟩ | ⟨a, b, c, -, -, -, -, -, shape⟩ <;>
    simp [shape]

theorem dec_head_ne_zero {v : Byte} (nonzero : v ≠ 0) : (dec v).head? ≠ some 0x30 := by
  have pos : v.toNat ≠ 0 := fun zero => nonzero (BitVec.eq_of_toNat_eq zero)
  rcases dec_cases v with ⟨a, ha, value, shape⟩ | ⟨a, b, pa, ha, -, -, shape⟩ | ⟨a, b, c, pa, ha, -, -, -, shape⟩
  · simpa [shape] using digitByte_ne_zero ha (by omega)
  · simpa [shape] using digitByte_ne_zero ha pa
  · simpa [shape] using digitByte_ne_zero ha pa

/-- A line of the decimal text of a byte is read as that byte. -/
theorem parseLine_dec (v : Byte) : parseLine (dec v ++ [lf]) = some v := by
  have full : dec v ≠ [] := List.length_pos_iff.mp (dec_length v).1
  have parsed := parseLine_padded_digits (before := []) (after := [lf]) rfl rfl full (dec_all_isDigit v)
  rwa [List.nil_append, digitsValue_dec, if_pos (Nat.le_of_lt_succ v.isLt), BitVec.ofNat_toNat, BitVec.setWidth_eq]
    at parsed

/-- Settles O40: the text is the decimal digits of the byte's value. -/
theorem decimalTextIsShortestAndParsesBack : Obligations.DecimalTextIsShortestAndParsesBack := by
  intro v
  obtain ⟨atLeast, atMost⟩ := dec_length v
  exact ⟨dec_all_isDigit v, digitsValue_dec v, atLeast, atMost, dec_head_ne_zero, fun zero => zero ▸ rfl,
    parseLine_dec v⟩

/-! ### `i` -/

/-- The answer to a read that is not outstanding only takes from the input. -/
theorem answered_fresh {s : State} (fresh : s.wait = false) (rest : List InItem) (n : Nat) :
    answered rest n s = { s with input := rest, inPos := s.inPos + n } := by
  rw [answered, ← fresh]

/-- Taking cause IO where nothing of the core has changed yet. -/
theorem raiseFault_io_of_sameCore {s now : State} (core : sameCore s now) :
    raiseFault .io s now = { now with rs := .faultIO, wait := false } := by
  obtain ⟨mem, pc, sp, -⟩ := core
  rw [raiseFault, ← mem, ← pc, ← sp]
  rfl

theorem sameCore_outWrite (bytes : List Byte) (s : State) : sameCore s (outWrite bytes s).2 := ⟨rfl, rfl, rfl, rfl⟩

theorem sameCore_outFlush (s : State) : sameCore s (outFlush s).2 := ⟨rfl, rfl, rfl, rfl⟩

/-- Settles O41: both a fresh and a waiting core come to the read, and a line that parses is answered the same. -/
theorem indecPushesTheParsedLine : Obligations.IndecPushesTheParsedLine := by
  refine ⟨rfl, fun s line rest v ahead parsed => ⟨fun fresh ok => ?_, fun wait => ?_⟩⟩
  · rw [exec_indec_afterPrompt fresh ok, readDecimal_ahead (s := afterPrompt s) ahead, parsed]
    simp only [answered_fresh (s := afterPrompt s) fresh]
    rfl
  · rw [exec_indec_waiting wait, readDecimal_ahead ahead, parsed]
    rfl

theorem exec_indec_prompt_fails {s : State} {n : Nat} {more : List OutReply} (fresh : s.wait = false)
    (replies : s.outReplies = .fails n :: more) :
    exec .indec s = .next (raiseFault .io s (outWrite prompt s).2) := by
  show execIndec s = _
  simp [execIndec, fresh, nextReply, replies]

theorem exec_indec_flush_fails {s : State} {n : Nat} {more : List OutReply} (fresh : s.wait = false)
    (replies : s.outReplies = .ok :: .fails n :: more) :
    exec .indec s = .next (raiseFault .io s (outFlush (outWrite prompt s).2).2) := by
  show execIndec s = _
  simp [execIndec, fresh, nextReply, replies]

/-- Cause IO taken by the read of `i`, behind its prompt and its flush. -/
theorem raiseFault_afterPrompt {s : State} (fresh : s.wait = false) (rest : List InItem) (n : Nat) :
    raiseFault .io s (answered rest n (afterPrompt s)) =
      { s with
        rs := .faultIO, input := rest, inPos := s.inPos + n,
        out := s.out ++ promptEvents, outReplies := s.outReplies.drop 2 } := by
  have core : sameCore s (answered rest n (afterPrompt s)) := ⟨rfl, rfl, rfl, rfl⟩
  rw [raiseFault_io_of_sameCore core, ← fresh]
  rfl

/-- Settles O42: the output's replies decide whether `i` comes to its read, and the stream decides the rest. -/
theorem indecFailsInOrder : Obligations.IndecFailsInOrder := by
  refine fun s fresh => ⟨fun n more replies => ?_, fun n more replies => ?_, fun n rest ok fails => ?_,
    fun line rest ok ahead unparsed => ?_⟩
  · rw [exec_indec_prompt_fails fresh replies, raiseFault_io_of_sameCore (sameCore_outWrite prompt s), ← fresh]
    simp [outWrite, nextReply, replies, prompt]
  · have core := sameCore.trans (sameCore_outWrite prompt s) (sameCore_outFlush (outWrite prompt s).2)
    rw [exec_indec_flush_fails fresh replies, raiseFault_io_of_sameCore core, ← fresh]
    simp [outFlush, outWrite, nextReply, replies, prompt]
  · rw [exec_indec_afterPrompt fresh ok, readDecimal_fails (s := afterPrompt s) fails, raiseFault_afterPrompt fresh]
    rfl
  · rw [exec_indec_afterPrompt fresh ok, readDecimal_ahead (s := afterPrompt s) ahead, unparsed]
    simp only [raiseFault_afterPrompt fresh]
    rfl

/-! ### `:` -/

/-- Settles O44: one clause for each front of the input; an unanswered read that has a next state entered the wait. -/
theorem inbytePushesTheNextByte : Obligations.InbytePushesTheNextByte := by
  refine ⟨rfl, fun s => ⟨fun b rest => exec_inbyte_byte, fun rest => exec_inbyte_readError, fun empty ended => ?_,
    fun empty unended t next => ?_⟩⟩
  · have core : sameCore s (answered [] 0 s) := ⟨rfl, rfl, rfl, rfl⟩
    rw [exec_inbyte_ended empty ended, raiseFault_io_of_sameCore core, answered, ← empty]
    rfl
  · rw [exec_inbyte_pending empty unended, awaitInput_spec] at next
    split at next
    · cases next
    · cases next
      exact ⟨rfl, rfl, rfl, rfl, rfl, rfl, rfl⟩

/-! ### `o`, `'` and the dump -/

theorem exec_outdec (s : State) :
    exec .outdec s = finishWrite s (outWrite (dec (topCell s) ++ [lf]) { s with sp := s.sp + 1 }) := rfl

theorem exec_outbyte (s : State) :
    exec .outbyte s = finishWrite s (outWrite [topCell s] { s with sp := s.sp + 1 }) := rfl

theorem exec_dump (s : State) :
    exec .dump s = finishWrite s (outWrite (Config.renderDump s.pc s.sp s.mem.cells) { s with sp := s.sp }) := rfl

/-- A writing instruction whose one write is answered `ok`. -/
theorem finishWrite_ok {before now : State} (ok : repliesOk 1 now) (bytes : List Byte) :
    finishWrite before (outWrite bytes now) = .next { now with
      pc := now.pc + 1, out := now.out ++ [.write bytes .ok], outReplies := now.outReplies.tail } := by
  rw [finishWrite_outWrite, if_pos (nextReply_ok ok), outWrite, nextReply_ok ok, advance]

/-- A writing instruction that has moved `sp` only and whose one write fails: the move is taken back. -/
theorem finishWrite_fails {s : State} {n : Nat} {more : List OutReply} (replies : s.outReplies = .fails n :: more)
    (bytes : List Byte) (x : Addr) :
    finishWrite s (outWrite bytes { s with sp := x }) = .next { s with
      rs := .faultIO, wait := false, out := s.out ++ [.write bytes (.fails n)], outReplies := more } := by
  have reply : nextReply { s with sp := x } = .fails n := by simp [nextReply, replies]
  rw [finishWrite_outWrite, if_neg (by simp [reply]), outWrite, reply, raiseFault]
  simp [replies]

/-- Settles O47: after the pop, one write answered `ok`. -/
theorem outdecWritesADecimalLine : Obligations.OutdecWritesADecimalLine := by
  refine ⟨rfl, fun s ok => ?_⟩
  rw [exec_outdec, finishWrite_ok (now := { s with sp := s.sp + 1 }) ok]
  rfl

/-- Settles O48: after the pop, one write, in each of its two endings. -/
theorem outbyteWritesTheRawByte : Obligations.OutbyteWritesTheRawByte := by
  refine ⟨rfl, fun s => ⟨fun ok => ?_, fun n more replies => ?_⟩⟩
  · rw [exec_outbyte, finishWrite_ok (now := { s with sp := s.sp + 1 }) ok]
    rfl
  · exact ⟨_, (exec_outbyte s).trans (finishWrite_fails replies _ _), rfl, rfl, rfl⟩

/-- The rendering sees each of the 256 cells as a read of its address sees it. -/
theorem cells_getElem (s : State) (a : Fin 256) : s.mem.cells[a] = readMem s (BitVec.ofFin a) := by
  simp [Memory.cells, readMem]

/-- Settles O49: one write answered `ok`, with `sp` not moved. -/
theorem dumpWritesTheRendering : Obligations.DumpWritesTheRendering := by
  refine ⟨rfl, fun s => ⟨fun ok => ?_, cells_getElem s⟩⟩
  rw [exec_dump, finishWrite_ok (now := s) ok]

/-- The output after one more failing write: what was delivered of it comes last. -/
theorem outputBytes_failed_write {s t : State} {bytes : List Byte} {n : Nat}
    (out : t.out = s.out ++ [.write bytes (.fails n)]) : outputBytes t = outputBytes s ++ bytes.take n := by
  simp [outputBytes, out, OutEvent.delivered]

/-- Settles O50: all three are `finishWrite` of one write, after at most a move of `sp`. -/
theorem failedWriteIsAPreciseIoFault : Obligations.FailedWriteIsAPreciseIoFault := by
  intro s n more i bytes replies which
  have shape : ∃ x : Addr, exec i s = finishWrite s (outWrite bytes { s with sp := x }) := by
    rcases which with which | which | which <;> obtain ⟨rfl, rfl⟩ := Prod.mk.inj which
    · exact ⟨_, exec_outdec s⟩
    · exact ⟨_, exec_outbyte s⟩
    · exact ⟨_, exec_dump s⟩
  obtain ⟨x, shape⟩ := shape
  exact ⟨_, shape.trans (finishWrite_fails replies bytes x), rfl, outputBytes_failed_write rfl⟩

end Sys2Proof.Machine
end

section
/-! PROOFS. Stack manipulation: each instruction as pops and pushes of the operands, a push back of the byte that stands
in the free cell as a move of `sp` alone, and the cells and registers the three instructions leave. -/

namespace Sys2Proof.Machine

/-! ### The instructions over pops and pushes -/

/-- What `@` does, by its two operands (R140). -/
theorem exec_swap (s : State) :
    exec .swap s = .next (advance (push (operandA s) (push (operandB s) (afterTwoPops s)))) := rfl

/-- What `(` does: the popped byte goes back to its cell, and once more into the cell below it (R141). -/
theorem exec_dup (s : State) :
    exec .dup s = .next (advance (push (topCell s) (push (topCell s) (pop s).2))) := rfl

/-- What `)` does: a pop, and the byte is discarded (R142). -/
theorem exec_drop (s : State) : exec .drop s = .next (advance (pop s).2) := rfl

theorem samePorts.push {s t : State} (same : samePorts s t) (v : Byte) : samePorts s (push v t) := same

theorem samePorts_afterTwoPops (s : State) : samePorts s (afterTwoPops s) := ⟨rfl, rfl, rfl, rfl, rfl, rfl⟩

/-! ### Exchange -/

/-- The memory after `@`, cell by cell: the top lands in the deeper cell, and the deeper operand in the top one. -/
theorem readMem_exchanged (s : State) (c : Addr) :
    readMem (push (operandA s) (push (operandB s) (afterTwoPops s))) c =
      if c = s.sp + 1 then belowCell s else if c = s.sp + 2 then topCell s else readMem s c := by
  rw [operandA_cell, operandB_cell, afterTwoPops_eq, readMem_push, readMem_push, push_sp, sp_up_twice_down,
    readMem_withSp]

/-- Two pops and two pushes end where they began. -/
theorem sp_two_pops_two_pushes (a b : Byte) (s : State) : (push a (push b (afterTwoPops s))).sp = s.sp := by
  rw [push_sp, push_sp, afterTwoPops_eq, sp_up_twice_down, sp_up_down]

/-- Settles O31: the four clauses about memory are the cells of `readMem_exchanged`. -/
theorem swapExchangesTheTopTwo : Obligations.SwapExchangesTheTopTwo := by
  refine ⟨rfl, fun s => ⟨_, exec_swap s, rfl, rfl, sp_two_pops_two_pushes (operandA s) (operandB s) s, rfl,
    ((samePorts_afterTwoPops s).push (operandB s)).push (operandA s), ?_, ?_, ?_, ?_⟩⟩
  · rw [readMem_advance, readMem_exchanged, if_pos rfl, belowCell]
  · have deeper : s.sp + 2 ≠ s.sp + 1 := by bv_omega
    rw [readMem_advance, readMem_exchanged, if_neg deeper, if_pos rfl, topCell]
  · intro c notTop notBelow
    rw [readMem_advance, readMem_exchanged, if_neg notTop, if_neg notBelow]
  · intro equal c
    rw [operandA_cell, operandB_cell] at equal
    rw [readMem_advance, readMem_exchanged]
    split_ifs with top below
    · rw [equal, top, topCell]
    · rw [← equal, below, belowCell]
    · rfl

/-! ### Duplicate -/

/-- A push of the byte that a pop has just taken puts memory and `sp` back. -/
theorem push_pop (s : State) : sameMemory s (push (topCell s) (pop s).2) ∧ (push (topCell s) (pop s).2).sp = s.sp := by
  refine ⟨fun c => ?_, by rw [push_sp, pop_sp, sp_up_down]⟩
  rw [readMem_push, pop_sp, readMem_pop]
  split_ifs with top
  · rw [top, topCell]
  · rfl

/-- What one write does to a state that reads as `s` is one write over `s`. -/
theorem onlyCell.of_sameMemory {s t u : State} {a : Addr} {v : Byte} (same : sameMemory s t) (one : onlyCell a v t u) :
    onlyCell a v s u := by
  obtain ⟨written, others⟩ := one
  exact ⟨written, fun c other => (others c other).trans (same c)⟩

/-- Settles O32: the first push puts the popped byte back, the second writes the cell at the old `sp`. -/
theorem dupCopiesTheTop : Obligations.DupCopiesTheTop := by
  refine ⟨rfl, fun s => ?_⟩
  obtain ⟨same, sp⟩ := push_pop s
  have one := onlyCell_push (topCell s) (push (topCell s) (pop s).2)
  rw [sp] at one
  have down : (push (topCell s) (push (topCell s) (pop s).2)).sp = s.sp - 1 := by rw [push_sp, sp]
  exact ⟨_, exec_dup s, rfl, down, rfl, ((samePorts_pop s).push (topCell s)).push (topCell s), one.of_sameMemory same⟩

/-! ### Drop -/

/-- Settles O33: a pop moves `sp` only, and the advance `pc` only. -/
theorem dropOnlyMovesSp : Obligations.DropOnlyMovesSp :=
  ⟨rfl, exec_drop⟩

end Sys2Proof.Machine
end

section
/-! PROOFS. The ALU: what each result is as a number, what the operand forms do with it, and the one cell a result
lands in. -/

namespace Sys2Proof.Machine

/-! ### The results as numbers -/

theorem wrap8_toNat (e : Int) : ((wrap8 e).toNat : Int) = e % 256 := by
  rw [wrap8, BitVec.toNat_ofInt]
  omega

theorem wrap8_natCast_toNat (n : Nat) : (wrap8 n).toNat = n % 256 := by
  have reduced := wrap8_toNat n
  omega

theorem aluAdd_toNat (a b : Byte) : (aluAdd a b).toNat = (a.toNat + b.toNat) % 256 :=
  wrap8_natCast_toNat (a.toNat + b.toNat)

theorem aluSub_toNat (a b : Byte) : ((aluSub a b).toNat : Int) = (a.toNat - b.toNat : Int) % 256 :=
  wrap8_toNat _

theorem aluMul_toNat (a b : Byte) : (aluMul a b).toNat = (a.toNat * b.toNat) % 256 :=
  wrap8_natCast_toNat (a.toNat * b.toNat)

theorem aluPow_toNat (a b : Byte) : (aluPow a b).toNat = (a.toNat ^ b.toNat) % 256 := by
  rw [aluPow, ← Int.natCast_pow, wrap8_natCast_toNat]

theorem aluPow_zero (a : Byte) : aluPow a 0 = 1 :=
  congrArg wrap8 (pow_zero (a.toNat : Int))

/-- A quotient fits in a byte, so nothing is reduced. -/
theorem aluDiv_toNat (a b : Byte) : (aluDiv a b).toNat = a.toNat / b.toNat := by
  rw [aluDiv, BitVec.toNat_ofNat, Nat.mod_eq_of_lt ((Nat.div_le_self _ _).trans_lt a.isLt)]

/-- A remainder fits in a byte, so nothing is reduced. -/
theorem aluRem_toNat (a b : Byte) : (aluRem a b).toNat = a.toNat % b.toNat := by
  rw [aluRem, BitVec.toNat_ofNat, ← Nat.mod_eq_sub_mul_div, Nat.mod_eq_of_lt ((Nat.mod_le _ _).trans_lt a.isLt)]

theorem aluNot_toNat (a : Byte) : (aluNot a).toNat = 255 - a.toNat := by
  rw [aluNot, BitVec.toNat_not]

theorem truth_decide (p : Prop) [Decidable p] : truth (decide p) = if p then 1 else 0 := by
  simp only [truth, decide_eq_true_eq]

theorem aluLnot_eq (a : Byte) : aluLnot a = if a = 0 then 1 else 0 :=
  truth_decide (a = 0)

theorem aluEq_eq (a b : Byte) : aluEq a b = if a = b then 1 else 0 :=
  truth_decide (a = b)

theorem aluLt_eq (a b : Byte) : aluLt a b = if a.toNat < b.toNat then 1 else 0 :=
  truth_decide (a.toNat < b.toNat)

theorem aluGt_eq (a b : Byte) : aluGt a b = if a.toNat > b.toNat then 1 else 0 :=
  truth_decide (b.toNat < a.toNat)

/-! ### The power, step by step -/

/-- Multiplying a reduced product by a byte is reducing the whole product. -/
theorem aluMul_wrap8 (e : Int) (a : Byte) : aluMul (wrap8 e) a = wrap8 (e * a.toNat) := by
  apply BitVec.eq_of_toNat_eq
  zify
  rw [aluMul, wrap8_toNat, wrap8_toNat, wrap8_toNat]
  exact (Int.mod_modEq e 256).mul_right _

theorem foldl_aluMul_replicate (a : Byte) (n : Nat) :
    (List.replicate n a).foldl aluMul 1 = wrap8 ((a.toNat : Int) ^ n) := by
  induction n with
  | zero => rw [pow_zero]; rfl
  | succ n ih => rw [List.replicate_succ', List.foldl_concat, ih, aluMul_wrap8, pow_succ]

/-- Settles O26, by induction on the exponent. -/
theorem powerIsRepeatedWrappingProduct : Obligations.PowerIsRepeatedWrappingProduct :=
  fun a b => (foldl_aluMul_replicate a b.toNat).symm

/-! ### The operand forms -/

theorem deliversOverTwo_of_binary {i : Instr} {s : State} (f : Byte → Byte → Byte) (shape : exec i s = binary f s) :
    deliversOverTwo i s (f (operandA s) (operandB s)) :=
  shape

theorem deliversOverTwo_of_divisive {i : Instr} {s : State} (f : Byte → Byte → Byte)
    (shape : exec i s = divisive f s) (nonzero : operandB s ≠ 0) :
    deliversOverTwo i s (f (operandA s) (operandB s)) :=
  deliversOverTwo_of_binary f (shape.trans (divisive_nonzero f s nonzero))

/-- Settles O22: each of the three is the two-operand form over its wrapping result. -/
theorem arithmeticWrapsModulo256 : Obligations.ArithmeticWrapsModulo256 :=
  ⟨rfl, rfl, rfl, fun _ =>
    ⟨⟨_, aluAdd_toNat _ _, deliversOverTwo_of_binary aluAdd rfl⟩,
      ⟨_, aluSub_toNat _ _, deliversOverTwo_of_binary aluSub rfl⟩,
      ⟨_, aluMul_toNat _ _, deliversOverTwo_of_binary aluMul rfl⟩⟩⟩

/-- Settles O23: quotient and remainder are those of the natural numbers. -/
theorem divisionByANonzeroDivisor : Obligations.DivisionByANonzeroDivisor := by
  refine ⟨rfl, rfl, fun s nonzero => ⟨aluDiv (operandA s) (operandB s), aluRem (operandA s) (operandB s), ?_, ?_,
    deliversOverTwo_of_divisive aluDiv rfl nonzero, deliversOverTwo_of_divisive aluRem rfl nonzero⟩⟩
  · rw [aluDiv_toNat, aluRem_toNat, Nat.div_add_mod]
  · rw [aluRem_toNat]
    exact Nat.mod_lt _ (Nat.pos_of_ne_zero (BitVec.toNat_ne.mp nonzero))

/-- Settles O24: the zero divisor's case of the dividing form. -/
theorem divisionByZeroTakesCauseArith : Obligations.DivisionByZeroTakesCauseArith :=
  fun s zero => ⟨divisive_zero aluDiv s zero, divisive_zero aluRem s zero⟩

/-- Settles O25: the two-operand form over the wrapped power. -/
theorem powerIsReducedModulo256 : Obligations.PowerIsReducedModulo256 :=
  ⟨rfl, fun s => ⟨_, aluPow_toNat _ _, deliversOverTwo_of_binary aluPow rfl, fun zero => by rw [zero, aluPow_zero]⟩⟩

/-- Settles O27: the one-operand form over the logical not. -/
theorem logicalNotPushesOneOrZero : Obligations.LogicalNotPushesOneOrZero := by
  refine ⟨rfl, fun s => ?_⟩
  rw [← aluLnot_eq]
  rfl

/-- Settles O28: each comparison is the two-operand form over its truth value. -/
theorem comparisonsAreUnsigned : Obligations.ComparisonsAreUnsigned := by
  refine ⟨rfl, rfl, rfl, fun s => ?_⟩
  rw [← aluEq_eq, ← aluLt_eq, ← aluGt_eq]
  exact ⟨deliversOverTwo_of_binary aluEq rfl, deliversOverTwo_of_binary aluLt rfl,
    deliversOverTwo_of_binary aluGt rfl⟩

/-- Settles O29: the complement is the one-operand form, the others the two-operand form over their bits. -/
theorem bitwiseResultsBitByBit : Obligations.BitwiseResultsBitByBit :=
  fun _ =>
    ⟨⟨_, aluNot_toNat _, rfl⟩,
      ⟨_, fun _ => BitVec.getLsbD_or, deliversOverTwo_of_binary aluOr rfl⟩,
      ⟨_, fun _ => BitVec.getLsbD_and, deliversOverTwo_of_binary aluAnd rfl⟩,
      ⟨_, fun _ => BitVec.getLsbD_xor, deliversOverTwo_of_binary aluXor rfl⟩⟩

/-! ### The cell a result lands in -/

/-- The dividing form with a nonzero divisor writes its result over the deeper operand. -/
theorem writesOneCell_of_divisive {i : Instr} {s : State} (f : Byte → Byte → Byte) (shape : exec i s = divisive f s)
    (nonzero : topCell s ≠ 0) : writesOneCell i s (s.sp + 1) (s.sp + 2) (f (belowCell s) (topCell s)) :=
  writesOneCell_of_binary f (shape.trans (divisive_nonzero f s nonzero))

/-- The one-operand form writes its result over its operand. -/
theorem writesOneCell_of_unary {i : Instr} {s : State} (f : Byte → Byte) (shape : exec i s = unary f s) :
    writesOneCell i s s.sp (s.sp + 1) (f (topCell s)) := by
  have one : writesOneCell i s (s.sp + 1 - 1) (s.sp + 1) (f (topCell s)) :=
    writesOneCell_of_push (shape.trans (unary_spec f s))
  rwa [sp_up_down] at one

/-- A literal digit writes its nibble into the free cell. -/
theorem writesOneCell_of_pushNibble {i : Instr} {s : State} (n : BitVec 4) (shape : exec i s = pushNibble n s) :
    writesOneCell i s (s.sp - 1) s.sp (n.setWidth 8) :=
  writesOneCell_of_push shape

/-- Settles O30: each row of a table is its operand form. -/
theorem stackResultsLandInOneCell : Obligations.StackResultsLandInOneCell := by
  unfold Obligations.StackResultsLandInOneCell
  simp only [List.forall_mem_cons, List.not_mem_nil, false_implies, implies_true, and_true]
  refine ⟨?binary, ?divisive, ?unary, ?literal⟩
  case binary =>
    exact ⟨fun _ => writesOneCell_of_binary aluAdd rfl, fun _ => writesOneCell_of_binary aluSub rfl,
      fun _ => writesOneCell_of_binary aluMul rfl, fun _ => writesOneCell_of_binary aluPow rfl,
      fun _ => writesOneCell_of_binary aluEq rfl, fun _ => writesOneCell_of_binary aluLt rfl,
      fun _ => writesOneCell_of_binary aluGt rfl, fun _ => writesOneCell_of_binary aluOr rfl,
      fun _ => writesOneCell_of_binary aluAnd rfl, fun _ => writesOneCell_of_binary aluXor rfl⟩
  case divisive =>
    exact ⟨fun _ => writesOneCell_of_divisive aluDiv rfl, fun _ => writesOneCell_of_divisive aluRem rfl⟩
  case unary =>
    exact ⟨fun _ => writesOneCell_of_unary aluLnot rfl, fun _ => writesOneCell_of_unary aluNot rfl⟩
  case literal =>
    exact ⟨fun _ => writesOneCell_of_pushNibble 0 rfl, fun _ => writesOneCell_of_pushNibble 1 rfl,
      fun _ => writesOneCell_of_pushNibble 2 rfl, fun _ => writesOneCell_of_pushNibble 3 rfl,
      fun _ => writesOneCell_of_pushNibble 4 rfl, fun _ => writesOneCell_of_pushNibble 5 rfl,
      fun _ => writesOneCell_of_pushNibble 6 rfl, fun _ => writesOneCell_of_pushNibble 7 rfl,
      fun _ => writesOneCell_of_pushNibble 8 rfl, fun _ => writesOneCell_of_pushNibble 9 rfl,
      fun _ => writesOneCell_of_pushNibble 10 rfl, fun _ => writesOneCell_of_pushNibble 11 rfl,
      fun _ => writesOneCell_of_pushNibble 12 rfl, fun _ => writesOneCell_of_pushNibble 13 rfl,
      fun _ => writesOneCell_of_pushNibble 14 rfl, fun _ => writesOneCell_of_pushNibble 15 rfl⟩

end Sys2Proof.Machine
end

section
/-! PROOFS. Control transfer: each jump by the operands it pops, and what the next step finds at the target. -/

namespace Sys2Proof.Machine

/-! ### The unconditional jump -/

/-- What `g` does, by its operand (R201). -/
theorem exec_jmp (s : State) : exec .jmp s = .next (jump (topCell s) (pop s).2) := rfl

/-- After a jump that leaves a machine in RUNNING, the next step runs the byte at the target (R200). -/
theorem step_jump {s : State} (run : s.rs = .running) (a : Addr) :
    step (jump a s) = exec (decode (readMem s a)) (jump a s) := by
  have running : (jump a s).rs = .running := by rwa [jump_rs]
  rw [step_running running, current_jump]

/-- Settles O34: the jump after one pop, and a pop leaves every cell and the run state as they are. -/
theorem jumpGoesToThePoppedAddress : Obligations.JumpGoesToThePoppedAddress := by
  refine ⟨rfl, fun s => ⟨_, exec_jmp s, rfl, fun run => ?_⟩⟩
  have popped : (pop s).2.rs = .running := by rwa [pop_rs]
  rw [step_jump popped, readMem_pop, topCell]

/-! ### The conditional jump -/

/-- What `j` does, by its two operands (R202). -/
theorem exec_jnz (s : State) :
    exec .jnz s = .next (if condHolds (operandA s) then jump (operandB s) (afterTwoPops s)
      else advance (afterTwoPops s)) := rfl

theorem condHolds_iff (v : Byte) : condHolds v = true ↔ v ≠ 0 := by
  simp [condHolds]

/-- Settles O35: both paths go on from the state after two pops and differ in `pc` only. -/
theorem conditionalJumpTestsForNonzero : Obligations.ConditionalJumpTestsForNonzero := by
  refine ⟨rfl, fun s => ?_⟩
  rw [exec_jnz, afterTwoPops_eq]
  by_cases zero : operandA s = 0
  · have fails : ¬ condHolds (operandA s) = true := by rwa [condHolds_iff, not_not]
    rw [if_neg fails, if_pos zero, advance]
  · have holds : condHolds (operandA s) = true := (condHolds_iff _).2 zero
    rw [if_pos holds, if_neg zero, jump]

end Sys2Proof.Machine
end

section
/-! PROOFS. Load and store: each is one write. A load writes the cell its address was popped from; a store writes the
cell at the popped address. -/

namespace Sys2Proof.Machine

/-! ### Load -/

/-- What `l` does: the cell is read before the push, and the byte pushed back over the address (R221). -/
theorem exec_load (s : State) : exec .load s = .next (advance (push (readMem s (pop s).1) (pop s).2)) := rfl

/-- Settles O36: after the one pop, the push goes to the address's own cell and takes `sp` back. -/
theorem loadReplacesTheAddressByTheByte : Obligations.LoadReplacesTheAddressByTheByte := by
  refine ⟨rfl, fun s => ⟨exec_load s, ?_⟩⟩
  have one : writesOneCell .load s (s.sp + 1 - 1) (s.sp + 1) (readMem s (pop s).1) := writesOneCell_of_push (exec_load s)
  rwa [sp_up_down] at one

/-! ### Store -/

/-- An instruction that moves `sp` to `a`, writes one cell and advances leaves every other cell as it was. -/
theorem writesOneCell_of_writeMem {i : Instr} {s : State} {a c : Addr} {v : Byte}
    (shape : exec i s = .next (advance (writeMem { s with sp := a } c v))) : writesOneCell i s a c v :=
  ⟨_, shape, rfl, rfl, rfl, ⟨rfl, rfl, rfl, rfl, rfl, rfl⟩, onlyCell_writeMem { s with sp := a } c v⟩

/-- Settles O37: two pops move `sp` up by 2, and the write goes to the first popped operand. -/
theorem storeWritesThePoppedAddress : Obligations.StoreWritesThePoppedAddress := by
  refine ⟨rfl, fun s => writesOneCell_of_writeMem ?_⟩
  rw [exec_store, afterTwoPops_eq]

end Sys2Proof.Machine
end

section
/-! PROOFS. Exceptions: the run state after a step by the ending of its instruction, what a fault keeps, what the host is
told of it, and the one way in which `i` fails at its read. -/

namespace Sys2Proof.Machine

/-! ### The run states of the causes -/

theorem FaultCause.runState_ne_running (cause : FaultCause) : cause.runState ≠ .running := by
  cases cause <;> simp

theorem FaultCause.runState_ne_halted (cause : FaultCause) : cause.runState ≠ .halted := by
  cases cause <;> simp

/-- The host is told the cause that the run state records. -/
theorem FaultCause.result_runState (cause : FaultCause) : cause.runState.result = .fault cause := by
  cases cause <;> rfl

/-! ### The run state after an instruction -/

theorem not_halts_of_divides {i : Instr} (h : divides i) : ¬ halts i := by
  rcases h with rfl | rfl <;> simp [halts]

theorem not_usesPorts_of_divides {i : Instr} (h : divides i) : ¬ usesPorts i := by
  rcases h with rfl | rfl <;> simp [usesPorts, readsInput, writesOutput]

theorem not_usesPorts_of_halts {i : Instr} (h : halts i) : ¬ usesPorts i := by
  rcases h with rfl | ⟨op, rfl⟩ <;> simp [usesPorts, readsInput, writesOutput]

/-- Cause ARITH is taken at a zero divisor and nowhere else (R300). -/
theorem Effect.rs_eq_faultArith_iff {i : Instr} {s t : State} (e : Effect i s t) (run : s.rs = .running) :
    t.rs = .faultArith ↔ divides i ∧ topCell s = 0 := by
  cases e.ending with
  | completed rs _ _ divisor => exact iff_of_false (by simp [rs, run]) fun ⟨who, zero⟩ => divisor who zero
  | halted who result => exact iff_of_false (by simp [result]) fun ⟨div, _⟩ => not_halts_of_divides div who
  | arith who zero result => exact iff_of_true (by simp [result]) ⟨who, zero⟩
  | io who _ _ _ rs => exact iff_of_false (by simp [rs]) fun ⟨div, _⟩ => not_usesPorts_of_divides div who
  | waits who _ _ _ rs =>
    exact iff_of_false (by simp [rs, run]) fun ⟨div, _⟩ => not_usesPorts_of_divides div (.inl who)

/-- The core halts at a halting instruction and nowhere else. -/
theorem Effect.rs_eq_halted_iff {i : Instr} {s t : State} (e : Effect i s t) (run : s.rs = .running) :
    t.rs = .halted ↔ halts i := by
  cases e.ending with
  | completed rs _ goesOn => exact iff_of_false (by simp [rs, run]) goesOn
  | halted who result => exact iff_of_true (by simp [result]) who
  | arith who _ result => exact iff_of_false (by simp [result]) (not_halts_of_divides who)
  | io who _ _ _ rs => exact iff_of_false (by simp [rs]) fun halt => not_usesPorts_of_halts halt who
  | waits who _ _ _ rs => exact iff_of_false (by simp [rs, run]) fun halt => not_usesPorts_of_halts halt (.inl who)

/-- Cause IO is taken at an instruction with a port only (R301). -/
theorem Effect.usesPorts_of_faultIO {i : Instr} {s t : State} (e : Effect i s t) (run : s.rs = .running)
    (fault : t.rs = .faultIO) : usesPorts i := by
  cases e.ending with
  | completed rs => simp [rs, run] at fault
  | halted _ result => simp [result] at fault
  | arith _ _ result => simp [result] at fault
  | io who => exact who
  | waits who => exact .inl who

/-- Settles O51: one lemma for each of the three run states that an instruction can enter. -/
theorem runStateChangesOnlyAsTabled : Obligations.RunStateChangesOnlyAsTabled := by
  intro s t run next
  rw [step_running run] at next
  have e := exec_inv next
  exact ⟨e.rs_eq_faultArith_iff run, e.rs_eq_halted_iff run, e.usesPorts_of_faultIO run⟩

/-! ### What a fault keeps, and what the host is told -/

/-- An instruction that leaves neither RUNNING nor HALTED took a fault: it keeps `pc`, `sp` and memory, and no read is
outstanding after it (R304). -/
theorem Effect.precise_of_fault {i : Instr} {s t : State} (e : Effect i s t) (run : s.rs = .running)
    (stopped : t.rs ≠ .running) (noHalt : t.rs ≠ .halted) :
    t.pc = s.pc ∧ t.sp = s.sp ∧ t.mem = s.mem ∧ t.wait = false := by
  cases e.ending with
  | completed rs => exact absurd (rs.trans run) stopped
  | halted _ result => simp [result] at noHalt
  | arith _ _ result => simp [result]
  | io _ mem pc sp _ wait => exact ⟨pc, sp, mem, wait⟩
  | waits _ _ _ _ rs => exact absurd (rs.trans run) stopped

/-- Settles O52: a terminal state stays as it is, and an instruction that faults is precise. -/
theorem faultsArePrecise : Obligations.FaultsArePrecise := by
  intro s t next fault
  rcases step_inv next with ⟨-, rfl⟩ | ⟨run, e⟩
  · exact ⟨rfl, rfl, rfl⟩
  · have stopped : t.rs ≠ .running := by rcases fault with rs | rs <;> simp [rs]
    have noHalt : t.rs ≠ .halted := by rcases fault with rs | rs <;> simp [rs]
    obtain ⟨pc, sp, mem, -⟩ := e.precise_of_fault run stopped noHalt
    exact ⟨pc, sp, mem⟩

/-- A Step that completed, which is one with no read outstanding, returns the result of its run state (R68). -/
theorem stepResult_of_next {s t : State} (next : step s = .next t) (idle : t.wait = false) :
    stepResult s = some t.rs.result := by
  simp [stepResult, next, idle]

/-- A Step that takes a fault has completed, returns its cause, and has no further effect after it. -/
theorem step_fault_stops {s t : State} {cause : FaultCause} (run : s.rs = .running) (next : step s = .next t)
    (fault : t.rs = cause.runState) : stepResult s = some (.fault cause) ∧ ∀ n : Nat, core.run n t = .next t := by
  have stopped : t.rs ≠ .running := fault ▸ cause.runState_ne_running
  have noHalt : t.rs ≠ .halted := fault ▸ cause.runState_ne_halted
  have e : Effect (current s) s t := exec_inv (step_running run ▸ next)
  obtain ⟨-, -, -, idle⟩ := e.precise_of_fault run stopped noHalt
  exact ⟨by rw [stepResult_of_next next idle, fault, cause.result_runState], core_run_terminal stopped⟩

/-- Settles O53: the entry keeps the output, the faulting step is the last one with an effect, and any other step that
completed returns the result of its run state. -/
theorem faultEntryStopsForGood : Obligations.FaultEntryStopsForGood := by
  refine ⟨fun cause before now => ⟨raiseFault_out cause before now, rfl, rfl⟩, fun s t cause => step_fault_stops,
    fun s t _ next idle => ⟨fun rs => ?_, fun rs => ?_⟩⟩
  · rw [stepResult_of_next next idle, rs, RunState.result]
  · rw [stepResult_of_next next idle, rs, RunState.result]

/-! ### `i` at its read -/

/-- A fresh core, whose output is answered `ok`, and a waiting one both come to the read, with the input as it was. -/
theorem exec_indec_reads {s : State} (ok : repliesOk 2 s) :
    ∃ now, exec .indec s = readDecimal s now ∧ now.input = s.input ∧ now.inEnded = s.inEnded := by
  cases wait : s.wait with
  | false => exact ⟨afterPrompt s, exec_indec_afterPrompt wait ok, rfl, rfl⟩
  | true => exact ⟨s, exec_indec_waiting wait, rfl, rfl⟩

theorem exec_indec_unparsed {s : State} {line : List Byte} {rest : List InItem} (ok : repliesOk 2 s)
    (ahead : lineAhead s line rest) (unparsed : parseLine line = none) :
    ∃ now, exec .indec s = .next (raiseFault .io s now) := by
  obtain ⟨now, reads, input, inEnded⟩ := exec_indec_reads ok
  have ahead' : lineAhead now line rest := by rwa [lineAhead, input, inEnded]
  exact ⟨_, by rw [reads, readDecimal_ahead ahead', unparsed]⟩

theorem exec_indec_read_fails {s : State} {n : Nat} {rest : List InItem} (ok : repliesOk 2 s)
    (fails : lineFails s n rest) : ∃ now, exec .indec s = .next (raiseFault .io s now) := by
  obtain ⟨now, reads, input, inEnded⟩ := exec_indec_reads ok
  have fails' : lineFails now n rest := by rwa [lineFails, input, inEnded]
  exact ⟨_, by rw [reads, readDecimal_fails fails']⟩

/-- Settles O43: a line that does not parse and a read that fails both raise cause IO (R302). -/
theorem parseFailureIsAnIoFailure : Obligations.ParseFailureIsAnIoFailure := by
  intro s line rest ok ahead unparsed
  obtain ⟨now, fault⟩ := exec_indec_unparsed ok ahead unparsed
  refine ⟨_, fault, rfl, fun u n rest' ok' fails => ?_⟩
  obtain ⟨now', fault'⟩ := exec_indec_read_fails ok' fails
  exact ⟨_, fault', rfl⟩

end Sys2Proof.Machine
end

section
/-! PROOFS. Reset and launch: what a launch leaves in the cells and the registers, the program it makes the fetch find,
the program line it takes its image from, what a relaunch keeps of the old machine, and the invariant at the start. -/

namespace Sys2Proof.Machine

/-! ### The launch -/

theorem launch_of_fits {img : List Byte} (fits : img.length ≤ 256) (h : HostStreams) :
    launch h img = .next (resetWith h img) := by
  rw [launch, if_pos fits]

/-- An image that does not fit the memory starts no run (R402, D13). -/
theorem launch_of_tooLong {img : List Byte} (tooLong : 256 < img.length) (h : HostStreams) :
    launch h img = .refused (.imageTooLong img.length) := by
  rw [launch, if_neg (by omega)]

/-- The inversion of a launch: the image fitted, and the machine is the reset one. -/
theorem launch_inv {h : HostStreams} {img : List Byte} {s : State} (started : launch h img = .next s) :
    img.length ≤ 256 ∧ s = resetWith h img := by
  by_cases fits : img.length ≤ 256
  · rw [launch_of_fits fits, Host.Outcome.next.injEq] at started
    exact ⟨fits, started.symm⟩
  · rw [launch_of_tooLong (by omega)] at started
    cases started

/-- The image stands at address 0 and up, with zeros behind it (R400). -/
theorem readMem_resetWith (h : HostStreams) (img : List Byte) {k : Nat} (hk : k < 256) :
    readMem (resetWith h img) (BitVec.ofNat 8 k) = img.getD k 0x00 := by
  have address : (BitVec.ofNat 8 k).toNat = k := by rw [BitVec.toNat_ofNat, Nat.mod_eq_of_lt hk]
  have cell : readMem (resetWith h img) (BitVec.ofNat 8 k) = Memory.read (Memory.load [] 0 img) k := by
    rw [readMem, address]
    rfl
  rw [cell, Memory.read_load]
  by_cases inside : k < img.length
  · rw [if_pos (by omega), Nat.sub_zero]
  · rw [if_neg (by omega), List.getD_eq_default _ _ (by omega), Memory.read_nil, Memory.blank]

/-- Settles O9: the registers are those of reset, and the cells hold the image. -/
theorem launchLoadsTheImage : Obligations.LaunchLoadsTheImage := by
  intro h img
  refine ⟨fun fits => ⟨resetWith h img, launch_of_fits fits h, fun k => readMem_resetWith h img, ?_⟩,
    fun tooLong => launch_of_tooLong tooLong h⟩
  exact ⟨rfl, rfl, rfl, rfl, rfl, rfl, rfl⟩

/-- Settles O8: the memory lists no cell, so that every cell reads as blank. -/
theorem resetLeavesTheSpecsValues : Obligations.ResetLeavesTheSpecsValues :=
  ⟨fun a => Memory.read_nil a.toNat, rfl, rfl, rfl, rfl, rfl⟩

/-! ### The program in memory -/

/-- The byte that fills the memory behind a program is the code of an unrecognized instruction, so that a program may be
read as if such instructions followed it. -/
theorem encodeProgram_getD (program : List Instr) (k : Nat) :
    (encodeProgram program).getD k 0x00 = encode (program.getD k (.unrecognized 0x00)) :=
  List.getD_map program (.unrecognized 0x00) encode

theorem wellFormed_getD {program : List Instr} (wf : ∀ i ∈ program, i.wellFormed = true) (k : Nat) :
    (program.getD k (.unrecognized 0x00)).wellFormed = true := by
  by_cases inside : k < program.length
  · rw [List.getD_eq_getElem _ _ inside]
    exact wf _ (List.getElem_mem inside)
  · rw [List.getD_eq_default _ _ (by omega)]
    decide

theorem current_jump_resetWith {program : List Instr} (wf : ∀ i ∈ program, i.wellFormed = true) (h : HostStreams)
    {k : Nat} (hk : k < 256) :
    current (jump (BitVec.ofNat 8 k) (resetWith h (encodeProgram program))) = program.getD k (.unrecognized 0x00) := by
  rw [current_jump, readMem_resetWith h _ hk, encodeProgram_getD, decode_encode (wellFormed_getD wf k)]

/-- Settles O4: the cell `k` of the launched machine holds the code of instruction `k`, which decodes to it. -/
theorem loadedProgramIsFetchedBack : Obligations.LoadedProgramIsFetchedBack := by
  intro h program wf fits
  have imageFits : (encodeProgram program).length ≤ 256 := by rwa [encodeProgram, List.length_map]
  exact ⟨_, launch_of_fits imageFits h, rfl, fun k => current_jump_resetWith wf h⟩

/-! ### The program line -/

theorem dropTerminator_of_crlf (text : List Byte) : dropTerminator (text ++ [cr, lf]) = text := by
  simp [dropTerminator]

theorem dropTerminator_of_lf {text : List Byte} (noCr : text.getLast? ≠ some cr) :
    dropTerminator (text ++ [lf]) = text := by
  rcases List.eq_nil_or_concat text with rfl | ⟨front, last, rfl⟩
  · rfl
  · have other : last ≠ cr := by simpa using noCr
    simp [dropTerminator, other]

theorem dropTerminator_of_no_lf {line : List Byte} (noLf : line.getLast? ≠ some lf) : dropTerminator line = line := by
  rcases List.eq_nil_or_concat line with rfl | ⟨front, last, rfl⟩
  · rfl
  · have other : last ≠ lf := by simpa using noLf
    simp [dropTerminator, other]

theorem launchLineDefault_eq (h : HostStreams) (line : List Byte) :
    launchLineDefault h line = launch h (dropTerminator line) := rfl

/-- Settles O10: the line's image is launched, and the default drops the terminator in each of the three cases. -/
theorem programLineIsLaunchedAsItsImage : Obligations.ProgramLineIsLaunchedAsItsImage := by
  refine ⟨fun h line => rfl, fun h text => ?_, fun h text noCr => ?_, fun h line noLf => ?_⟩
  · rw [launchLineDefault_eq, dropTerminator_of_crlf]
  · rw [launchLineDefault_eq, dropTerminator_of_lf noCr]
  · rw [launchLineDefault_eq, dropTerminator_of_no_lf noLf]

/-! ### The next run -/

/-- The streams of the next machine are made from the old one's input and the end of it alone. -/
theorem carriedStreams_congr {old old' : State} (input : old.input = old'.input) (inEnded : old.inEnded = old'.inEnded)
    (n : Nat) (h : HostStreams) : carriedStreams old n h = carriedStreams old' n h := by
  cases ended : old'.inEnded <;> simp [carriedStreams, supply, input, inEnded, ended]

/-- Settles O11: a relaunch looks at the old machine through the carried streams only. -/
theorem onlyInputSurvivesARun : Obligations.OnlyInputSurvivesARun := by
  intro old old' n h img input inEnded
  rw [relaunch, relaunch, carriedStreams_congr input inEnded]

/-! ### The invariant at the start, and under the host's supply -/

/-- A machine that has not run yet has the invariant: it neither waits nor has stopped, and has issued no output. -/
theorem Inv.of_fresh {s : State} (canonical : s.mem.wf = true) (running : s.rs = .running) (idle : s.wait = false)
    (silent : s.out = []) : Inv s :=
  .of_idle canonical (by simp [silent]) (by simp [silent]) idle (by simp [running]) (by simp [running])
    (by simp [running])

/-- Settles O59: reset leaves a fresh machine with no cell listed. -/
theorem resetMeetsTheInvariant : Obligations.ResetMeetsTheInvariant :=
  .of_fresh Memory.wf_nil rfl rfl rfl

theorem Inv.of_resetWith (h : HostStreams) {img : List Byte} (fits : img.length ≤ 256) : Inv (resetWith h img) :=
  .of_fresh (Memory.wf_load Memory.wf_nil img (by omega)) rfl rfl rfl

/-- The invariant speaks of the core, the wait condition and the output only. -/
theorem Inv.of_sameCore {s t : State} (inv : Inv s) (core : sameCore s t) (wait : t.wait = s.wait)
    (out : t.out = s.out) : Inv t := by
  have popped : (pop t).1 = (pop s).1 := core.popped
  obtain ⟨mem, pc, -, rs⟩ := core
  have here : current t = current s := current_congr mem pc
  constructor
  case canonical => rw [mem]; exact inv.canonical
  case waiting => rw [wait, rs, here]; exact inv.waiting
  case prompted => rw [wait, here, out]; exact inv.prompted
  case atHalt => rw [rs, here]; exact inv.atHalt
  case atIoFault => rw [rs, here]; exact inv.atIoFault
  case atArithFault => rw [rs, here, popped]; exact inv.atArithFault
  case repliesOk => rw [rs, out]; exact inv.repliesOk
  case onlyLastFails => rw [out]; exact inv.onlyLastFails

@[simp] theorem supply_out (items : List InItem) (ends : Bool) (s : State) : (supply items ends s).out = s.out := by
  unfold supply
  split <;> rfl

/-- Settles O60: a launch leaves a fresh machine with its image loaded, and the supply touches the input only. -/
theorem launchAndSupplyMeetTheInvariant : Obligations.LaunchAndSupplyMeetTheInvariant := by
  refine ⟨fun h img s started => ?_, fun s items ends inv => ?_⟩
  · obtain ⟨fits, rfl⟩ := launch_inv started
    exact .of_resetWith h fits
  · exact inv.of_sameCore (sameCore_supply items ends s) (supply_wait items ends s) (supply_out items ends s)

end Sys2Proof.Machine
end
